-- ==== Sys2Proof/Word.lean ====
section
/-! DEFINITION. The word types of the block (00_scope R5). -/

namespace Sys2Proof

/-- An 8-bit unit: a data byte, a character code or a command word (R5: `BYTE_W` and `CHAR_W` are 8). -/
abbrev Byte := BitVec 8

/-- A 5-bit symbol index (R5: `SYM_W` is 5; R8 "index"). -/
abbrev Index := BitVec 5

end Sys2Proof
end

