-- ==== Sys2Proof/Config.lean ====
section
/-! DEFINITION. The names of the built-in alphabets, and the free values: constants without a body that stand for every value
the spec calls unspecified. The open parameter MAX_IN is a field of State (log 3). -/

namespace Sys2Proof

/-- The four built-in alphabets by name, in the order of their `sel` numbers 0 to 3 (R13, R51). -/
inductive Builtin where
  | default
  | rfc4648
  | exthex
  | natarea
deriving DecidableEq, Repr

/-- What `IN[i]` holds after the given number of resets while nothing has written it (R23, U8: any value). Log 4. -/
opaque Config.freeIn : Nat → Nat → Byte

/-- What a host read of `OUT[j]` with `j ≥ OLEN` answers (R32, U5: any value); the first argument is the draw. Log 5. -/
opaque Config.freeOut : Nat → Nat → Byte

/-- What a host read of ERRCHAR answers while `STATUS.ERR ≠ 2` (R15, U7: any value). Log 6. -/
opaque Config.freeErrChar : Nat → Byte

/-- What a host read of `ALPHA[k]` answers while `STATUS.VALID = 0` (R20, U6: any value). Log 7. -/
opaque Config.freeAlpha : Nat → Nat → Byte

/-- The contents of FWD after a failed INITB (R78, U4: any value). Log 8. -/
opaque Config.freeFwd : Nat → Vector Byte 32

/-- The contents of REV after a failed INITB (R78, U4: any value). Log 8. -/
opaque Config.freeRev : Nat → Vector (Option Index) 256

end Sys2Proof
end

