-- ==== Sys2Proof/Syntax.lean ====
section
/-! DEFINITION. The commands of the block, one constructor per row of spec/opcode_table.json (30_encoding R52). -/

namespace Sys2Proof

/-- A command. The only operand is the built-in alphabet of INITR, decoded to its name (R51). -/
inductive Instr where
  /-- `INITR sel`: construct the codec from a built-in alphabet (R72). -/
  | initr (alphabet : Builtin)
  /-- `INITB`: construct the codec from the alphabet in IN (R74). -/
  | initb
  /-- `ENC`: encode IN (R86). -/
  | enc
  /-- `DEC`: decode IN (R101). -/
  | dec
deriving DecidableEq, Repr

end Sys2Proof
end

