-- ==== Sys2Proof/WellFormed.lean ====
section
/-! DEFINITION. The fields of a command word and what format CMD8 asks of them (30_encoding R50, R54). Every term of `Instr` is
well formed by its type (the alphabet of INITR is a name, not a number), so the checks are on words: which fields may stand
together. The decoder does not use them: it matches the rows of R52. -/

namespace Sys2Proof

/-- `OPC`, bits 7:4 (R50). -/
def opcField (w : Byte) : BitVec 4 := w.extractLsb' 4 4

/-- `RSV`, bits 3:2 (R50). -/
def rsvField (w : Byte) : BitVec 2 := w.extractLsb' 2 2

/-- `SEL`, bits 1:0 (R50, R51). -/
def selField (w : Byte) : BitVec 2 := w.extractLsb' 0 2

/-- `OPC` names one of the four commands: it is neither 0 nor at least 5 (R54). -/
def opcLegal (w : Byte) : Bool := decide (1 ≤ (opcField w).toNat ∧ (opcField w).toNat ≤ 4)

/-- `RSV` is "reserved, must be 0" (R50). -/
def rsvLegal (w : Byte) : Bool := decide (rsvField w = 0)

/-- `SEL` is "built-in alphabet number for INITR; must be 0 for every other command" (R50). -/
def selLegal (w : Byte) : Bool := decide (opcField w = 1 ∨ selField w = 0)

/-- The word is one that R54 does not list as illegal. -/
def wellFormedWord (w : Byte) : Bool := opcLegal w && rsvLegal w && selLegal w

end Sys2Proof
end

