-- ==== Sys2Proof/Decode.lean ====
section
/-! DEFINITION. Decoding a command word by the rows of 30_encoding R52, rejecting by name (R54), and the encoder. -/

namespace Sys2Proof

/-- The four rows of the opcode map, by mnemonic (R52). -/
inductive Opcode where
  | initr
  | initb
  | enc
  | dec
deriving DecidableEq, Repr

/-- A row of the opcode map: `w` matches it when `(w & mask) = pattern` (R52; the table's `match` column is `pattern`). -/
structure OpcodeRow where
  opcode : Opcode
  pattern : Byte
  mask : Byte
deriving DecidableEq, Repr

/-- Why a word is illegal (R54 lists the same three ways). All three raise the one error IllegalCommand. Log 17. -/
inductive Illegal where
  /-- `OPC` = 0 or `OPC` ≥ 5. -/
  | operationCode
  /-- `OPC` in 1 to 4 with `RSV` ≠ 0. -/
  | reservedBits
  /-- `OPC` in 2 to 4 with `RSV` = 0 and `SEL` ≠ 0. -/
  | selector
deriving DecidableEq, Repr

/-- The opcode map (R52). -/
def opcodeRows : List OpcodeRow :=
  [ ⟨.initr, 0x10, 0xFC⟩,
    ⟨.initb, 0x20, 0xFF⟩,
    ⟨.enc, 0x30, 0xFF⟩,
    ⟨.dec, 0x40, 0xFF⟩ ]

/-- `(w & mask) = match` (R52). -/
def OpcodeRow.matchesWord (r : OpcodeRow) (w : Byte) : Bool := decide (w &&& r.mask = r.pattern)

/-- The built-in alphabet that the 2-bit number `sel` selects (R51). -/
def builtinOfSel (sel : BitVec 2) : Builtin :=
  match sel.toNat with
  | 0 => .default
  | 1 => .rfc4648
  | 2 => .exthex
  | _ => .natarea

/-- The number of a built-in alphabet (R13, R51). -/
def selOfBuiltin : Builtin → BitVec 2
  | .default => 0
  | .rfc4648 => 1
  | .exthex => 2
  | .natarea => 3

/-- The command of a row, its operand taken from `SEL` (R51). -/
def instrOfRow (op : Opcode) (w : Byte) : Instr :=
  match op with
  | .initr => .initr (builtinOfSel (selField w))
  | .initb => .initb
  | .enc => .enc
  | .dec => .dec

/-- The name of the rule an unmatched word breaks (R54). -/
def whyIllegal (w : Byte) : Illegal :=
  if !opcLegal w then .operationCode else if !rsvLegal w then .reservedBits else .selector

/-- Decode a command word: the row it matches, or the reason it matches none (R52, R54). -/
def decode (w : Byte) : Except Illegal Instr :=
  match opcodeRows.find? (fun r => r.matchesWord w) with
  | some r => .ok (instrOfRow r.opcode w)
  | none => .error (whyIllegal w)

/-- The command word of a command: `OPC`, `RSV` = 0, `SEL` (R50, R52). -/
def encode : Instr → Byte
  | .initr a => (0x1 : BitVec 4) ++ (0 : BitVec 2) ++ selOfBuiltin a
  | .initb => (0x2 : BitVec 4) ++ (0 : BitVec 2) ++ (0 : BitVec 2)
  | .enc => (0x3 : BitVec 4) ++ (0 : BitVec 2) ++ (0 : BitVec 2)
  | .dec => (0x4 : BitVec 4) ++ (0 : BitVec 2) ++ (0 : BitVec 2)

/-- The command read from a table word. Every command is one 8-bit word (R56), so bit 0 of the table's numbering is bit 0 of
the command word, and a number of another length or beyond 8 bits is no command. -/
def decodeTableWord (nbits w : Nat) : Option Instr :=
  if nbits = 8 ∧ w < 256 then
    match decode (BitVec.ofNat 8 w) with
    | .ok i => some i
    | .error _ => none
  else none

end Sys2Proof
end

