-- ==== Sys2Proof/Machine/State.lean ====
section
/-! DEFINITION. The state of the block and of its host, as plain data (10_state R10, R23). -/

namespace Sys2Proof.Machine

/-- The outcome of the most recent command, the field `STATUS.ERR` (10_state R14, 60_exceptions R121). The codes 6 and 7 are
never produced, so they have no name here (93_implementation_defined U10). -/
inductive ErrCode where
  /-- Code 0: the command succeeded. -/
  | none
  /-- Code 1: InvalidAlphabet, raised by INITB. -/
  | invalidAlphabet
  /-- Code 2: InvalidCharacter, raised by DEC. -/
  | invalidCharacter
  /-- Code 3: InvalidInput, raised by DEC. -/
  | invalidInput
  /-- Code 4: NoCodec, raised by ENC and DEC. -/
  | noCodec
  /-- Code 5: IllegalCommand, raised by a command word outside the opcode map. -/
  | illegalCommand
deriving DecidableEq, Repr

/-- Memory of a buffer: (index, unit) pairs, indices strictly rising (`Memory.wf`). An index that is not listed has not been
written since reset, and holds no value of its own: what reading it gives is said by the space's read (`State.inAt`,
`State.outAt`). Log 4, log 5. -/
abbrev Memory := List Host.Cell

/-- What a host read names (20_memory R41; CMD by 10_state R19). -/
inductive Target where
  | status
  | errchar
  | len
  | olen
  | cmd
  | inUnit (i : Nat)
  | outUnit (j : Nat)
  | alpha (k : Nat)
deriving DecidableEq, Repr

/-- One action of the host (20_memory R41). -/
inductive HostAction where
  /-- `HostWriteIn(i, v)`: `IN[i] <- v`. -/
  | writeIn (i : Nat) (v : Byte)
  /-- `HostWriteLen(n)`: `LEN <- n`. -/
  | writeLen (n : Nat)
  /-- `HostIssue(w)`: perform the command with command word `w`. -/
  | issue (w : Byte)
  /-- `HostRead(t)`: return a register or an element, with no effect on the block. -/
  | read (t : Target)
  /-- `Reset`: put every piece of state at its reset value. -/
  | reset
deriving DecidableEq, Repr

/-- What a host read returns: an 8-bit value, or the whole number in LEN or OLEN (20_memory R36). -/
inductive Answer where
  | byte (b : Byte)
  | count (n : Nat)
deriving DecidableEq, Repr

/-- Why a step stops with a fault. No command faults; only a host action outside the allowed values of 20_memory R41 does. -/
inductive Fault where
  /-- A host access to `IN[i]` with `i ≥ MAX_IN`, an element that does not exist (R30, R41). Raised by `hostWriteIn` and
  `hostReadIn`. Safe: the model stops where the spec allows no action. -/
  | inIndex
  /-- A host read of `OUT[j]` with `j ≥ MAX_OUT`, an element that does not exist (R30, R41). Raised by `hostReadOut`. Safe. -/
  | outIndex
  /-- A host read of `ALPHA[k]` with `k ≥ 32`, an element that does not exist (R20, R41). Raised by `hostReadAlpha`. Safe. -/
  | alphaIndex
  /-- A host write of a length above MAX_IN to LEN (R16, R41). Raised by `hostWriteLen`. Safe. -/
  | lenTooLarge
deriving DecidableEq, Repr

/-- Why a step has no meaning. -/
inductive Refusal where
  /-- An instruction without a meaning, by its mnemonic. No arm of `exec` answers with it. Safe. -/
  | notModelled (mnemonic : String)
  /-- A host read of CMD: "it holds no state: a read is not defined and a model gives it none" (10_state R19, U14). Raised by
  `hostRead`. Safe. -/
  | readOfCmd
deriving DecidableEq, Repr

/-- The state: what the spec gives the block (10_state R10), its one open parameter, the host's side of the interface, and the
counters that the free values are applied to. -/
structure State where
  /-- FWD, the forward table (R11). -/
  fwd : Vector Byte 32
  /-- REV, the reverse lookup: `none` is a miss, `some k` is `hit = 1` with `idx = k` (R12, U13). -/
  rev : Vector (Option Index) 256
  /-- STATUS.VALID (R14). -/
  valid : Bool
  /-- STATUS.ERR (R14). -/
  err : ErrCode
  /-- ERRCHAR (R15). -/
  errchar : Byte
  /-- OLEN (R16). -/
  olen : Nat
  /-- OUT, the output buffer (20_memory R32). -/
  out : Memory
  /-- IN, the input buffer (20_memory R31). -/
  inp : Memory
  /-- LEN (R16). -/
  len : Nat
  /-- E_CARRY (R17). -/
  eCarry : BitVec 7
  /-- E_BITS (R17). -/
  eBits : BitVec 3
  /-- D_CHUNK (R17). -/
  dChunk : BitVec 12
  /-- D_BITS (R17). -/
  dBits : BitVec 4
  /-- IPOS (R18). -/
  ipos : Nat
  /-- MAX_IN, the capacity of IN in units (00_scope R5, D16: OPEN, any natural number or unbounded): `none` is unbounded. A
  parameter: no step changes it. Log 3. -/
  maxIn : Option Nat
  /-- The model's own: the host's actions not yet performed, the next one first. Log 1. -/
  pending : List HostAction
  /-- The model's own: what the host's latest read returned. Log 2. -/
  answer : Option Answer
  /-- The model's own: how many command words, host writes and resets there have been. Log 10. -/
  draws : Nat
  /-- The model's own: how many Reset actions there have been. Log 10. -/
  resets : Nat
deriving DecidableEq, Repr

/-- The state right after reset (10_state R23). FWD, REV, ERRCHAR and the working registers, which R23 leaves unspecified, hold
the values of log 9; IN and OUT list nothing. -/
def State.reset : State where
  fwd := Vector.replicate 32 0
  rev := Vector.replicate 256 none
  valid := false
  err := .none
  errchar := 0
  olen := 0
  out := []
  inp := []
  len := 0
  eCarry := 0
  eBits := 0
  dChunk := 0
  dBits := 0
  ipos := 0
  maxIn := none
  pending := []
  answer := none
  draws := 0
  resets := 0

end Sys2Proof.Machine
end

