-- ==== Sys2Proof/Machine/Operands.lean ====
section
/-! DEFINITION. What the commands read: buffer units, table entries, ROM characters (20_memory R30, R33), and the masks of the
block's arithmetic (00_scope R6). -/

namespace Sys2Proof.Machine

/-- `mask(n) = (1 << n) - 1`, the `n` low bits set (R6). -/
def lowMask (n : Nat) : Nat := (1 <<< n) - 1

/-- The unit a buffer holds at an index: `none` where nothing has written it since reset. -/
def Memory.get? : Memory → Nat → Option Byte
  | [], _ => none
  | (k, v) :: m, a => if k = a then some v else Memory.get? m a

/-- The canonical form of a buffer: indices strictly rising. An unlisted index holds no value, so no listed value can equal
it. -/
abbrev Memory.wf (m : Memory) : Prop := m.Pairwise (fun x y => x.1 < y.1)

/-- `IN[i]` (R31). An element nothing has written since reset holds an unspecified value, the same at every read (R23, R38):
a free value. Log 4. -/
def State.inAt (s : State) (i : Nat) : Byte := (s.inp.get? i).getD (Config.freeIn s.resets i)

/-- `OUT[j]` as the block reads it: DEC reads only the element it wrote last (R107), so the free value for an element nothing
has written is never reached. Log 5. -/
def State.outAt (s : State) (j : Nat) : Byte := (s.out.get? j).getD (Config.freeOut s.draws j)

/-- `FWD[k]`, `k` a 5-bit number, always in range (R33). -/
def State.fwdAt (s : State) (k : Index) : Byte := s.fwd[k.toNat]'(k.isLt)

/-- `REV[c]`, `c` an 8-bit number, always in range: a hit's index, or a miss (R12, R33). -/
def State.revAt (s : State) (c : Byte) : Option Index := s.rev[c.toNat]'(c.isLt)

/-- The 32 characters of a built-in alphabet, index 0 first: the table `ROM[sel][k]` of 10_state R13. The codes are ASCII
(D5). Log 14. -/
def romRow : Builtin → Vector Byte 32
  | .default =>
    #v[0x30, 0x31, 0x32, 0x33, 0x34, 0x35, 0x36, 0x37, 0x38, 0x39, 0x41, 0x42, 0x43, 0x44, 0x45, 0x46,
       0x47, 0x48, 0x4A, 0x4B, 0x4D, 0x4E, 0x50, 0x51, 0x52, 0x54, 0x55, 0x56, 0x57, 0x58, 0x59, 0x5A]
  | .rfc4648 =>
    #v[0x41, 0x42, 0x43, 0x44, 0x45, 0x46, 0x47, 0x48, 0x49, 0x4A, 0x4B, 0x4C, 0x4D, 0x4E, 0x4F, 0x50,
       0x51, 0x52, 0x53, 0x54, 0x55, 0x56, 0x57, 0x58, 0x59, 0x5A, 0x32, 0x33, 0x34, 0x35, 0x36, 0x37]
  | .exthex =>
    #v[0x30, 0x31, 0x32, 0x33, 0x34, 0x35, 0x36, 0x37, 0x38, 0x39, 0x41, 0x42, 0x43, 0x44, 0x45, 0x46,
       0x47, 0x48, 0x49, 0x4A, 0x4B, 0x4C, 0x4D, 0x4E, 0x4F, 0x50, 0x51, 0x52, 0x53, 0x54, 0x55, 0x56]
  | .natarea =>
    #v[0x30, 0x31, 0x32, 0x33, 0x34, 0x35, 0x36, 0x37, 0x38, 0x39, 0x41, 0x42, 0x43, 0x44, 0x46, 0x47,
       0x48, 0x4A, 0x4B, 0x4C, 0x4D, 0x4E, 0x50, 0x51, 0x52, 0x53, 0x54, 0x56, 0x57, 0x58, 0x59, 0x5A]

/-- `ROM[sel][k]` (R13, R33). -/
def romAt (a : Builtin) (k : Index) : Byte := (romRow a)[k.toNat]'(k.isLt)

end Sys2Proof.Machine
end

