-- ==== Sys2Proof/Machine/Flags.lean ====
section
/-! DEFINITION. The only status flags, VALID and ERR, and the status word a host reads (10_state R14, R25). -/

namespace Sys2Proof.Machine

/-- The 3-bit code of an outcome (60_exceptions R121). -/
def errBits : ErrCode → BitVec 3
  | .none => 0
  | .invalidAlphabet => 1
  | .invalidCharacter => 2
  | .invalidInput => 3
  | .noCodec => 4
  | .illegalCommand => 5

/-- STATUS as the host reads it: bit 0 is VALID, bits 3:1 are ERR, bits 7:4 read as 0 (R14, U9). -/
def State.status (s : State) : Byte := (0 : BitVec 4) ++ errBits s.err ++ BitVec.ofBool s.valid

end Sys2Proof.Machine
end

