-- ==== Sys2Proof/Machine/Ops.lean ====
section
/-! DEFINITION. The shared operations: buffer writes, `emit`, the start of every command, raising an error, and the host's free
draws (00_scope R7, 10_state R14 to R16, 60_exceptions R124). -/

namespace Sys2Proof.Machine

/-- Write one unit of a buffer, keeping its indices strictly rising. -/
def Memory.set : Memory → Nat → Byte → Memory
  | [], a, v => [(a, v)]
  | (k, w) :: m, a, v =>
    if a < k then (a, v) :: (k, w) :: m
    else if a = k then (a, v) :: m
    else (k, w) :: Memory.set m a v

/-- `emit(v)`: `OUT[OLEN] <- v; OLEN <- OLEN + 1` (R7). -/
def State.emit (s : State) (v : Byte) : State := { s with out := s.out.set s.olen v, olen := s.olen + 1 }

/-- `IPOS <- IPOS + 1`, at the end of an element step (R18). -/
def State.nextUnit (s : State) : State := { s with ipos := s.ipos + 1 }

/-- The unspecified values of host reads are drawn anew: the host's next read may find others (R38). Log 10. -/
def State.redraw (s : State) : State := { s with draws := s.draws + 1 }

/-- What every command word does first, legal or not: `STATUS.ERR <- 0 ; OLEN <- 0` (R14, R16). -/
def State.beginCommand (s : State) : State := { s.redraw with err := .none, olen := 0 }

/-- `raise E`: `STATUS.ERR <- code(E) ; OLEN <- 0`, and nothing else (60_exceptions R124). The error's own information is
written just before, by the command. -/
def State.raise (s : State) (e : ErrCode) : State := { s with err := e, olen := 0 }

/-- How far a command has come: it goes on, or it has raised and nothing after is executed (R7). -/
inductive Flow where
  | going (s : State)
  | raised (s : State)
deriving DecidableEq, Repr

/-- The rest of a command's pseudocode, skipped when it has raised (R7). -/
def Flow.andThen (f : Flow) (g : State → Flow) : Flow :=
  match f with
  | .going s => g s
  | .raised s => .raised s

/-- A command is complete, with its effects made, whether it raised or not (20_memory R40, 60_exceptions R120). -/
def Flow.finish : Flow → Host.Outcome State Fault Refusal
  | .going s => .next s
  | .raised s => .next s

/-- InvalidAlphabet: VALID is cleared and the tables become unspecified (R75, R76, R78; R124), here free tables. Log 8. -/
def State.raiseInvalidAlphabet (s : State) : State :=
  { s with valid := false, fwd := Config.freeFwd s.draws, rev := Config.freeRev s.draws }.raise .invalidAlphabet

/-- The check ENC and DEC make before anything else: `if STATUS.VALID = 0: raise NoCodec` (60_exceptions R122, R126). -/
def State.requireCodec (s : State) : Flow :=
  if s.valid then .going s else .raised (s.raise .noCodec)

/-- An illegal command word: `STATUS.ERR <- 5`, `OLEN <- 0`, and nothing else changes (30_encoding R54). -/
def State.illegalCommand (s : State) : State := s.beginCommand.raise .illegalCommand

end Sys2Proof.Machine
end

