-- ==== Sys2Proof/Machine/Construct.lean ====
section
/-! DEFINITION. The construction commands INITR and INITB (40_construct). -/

namespace Sys2Proof.Machine

/-- The start of `BuildTables`: `STATUS.VALID <- 0` and every entry of REV cleared (R71). -/
def State.clearTables (s : State) : State := { s with valid := false, rev := Vector.replicate 256 none }

/-- `FWD[i] <- c ; REV[c] <- (hit = 1, idx = i)` (R71). -/
def State.setEntry (s : State) (i : Index) (c : Byte) : State :=
  { s with fwd := s.fwd.set i.toNat c i.isLt, rev := s.rev.set c.toNat (some i) c.isLt }

/-- The pass of `BuildTables` over `n` positions from `i` on (R71): a character already at an earlier position raises
InvalidAlphabet (R76). `tick` is what the command does at the end of each element step: INITB advances IPOS, INITR has no
position in IN (R18). -/
def buildPass (char : Nat → Byte) (tick : State → State) : Nat → Nat → State → Flow
  | 0, _, s => .going s
  | n + 1, i, s =>
    match s.revAt (char i) with
    | some _ => .raised s.raiseInvalidAlphabet
    | none => buildPass char tick n (i + 1) (tick (s.setEntry (BitVec.ofNat 5 i) (char i)))

/-- The end of `BuildTables`: `STATUS.VALID <- 1` (R71). -/
def State.setValid (s : State) : State := { s with valid := true }

/-- `BuildTables(A)` with `A` the function `char` (R71). -/
def buildTables (char : Nat → Byte) (tick : State → State) (s : State) : Flow :=
  (buildPass char tick 32 0 s.clearTables).andThen fun t => .going t.setValid

/-- `INITR sel` (R72): build the tables from `ROM[sel]`. -/
def execInitr (a : Builtin) (s : State) : Host.Outcome State Fault Refusal :=
  (buildTables (fun i => romAt a (BitVec.ofNat 5 i)) id s.beginCommand).finish

/-- The length check of INITB: `if LEN != 32: raise InvalidAlphabet` (R75). -/
def State.requireAlphabetLength (s : State) : Flow :=
  if s.len = 32 then .going s else .raised s.raiseInvalidAlphabet

/-- `INITB` (R74): build the tables from `IN[0..31]`, IPOS at 0 first (R18). -/
def execInitb (s : State) : Host.Outcome State Fault Refusal :=
  (State.requireAlphabetLength { s.beginCommand with ipos := 0 }).andThen
    (fun t => buildTables t.inAt State.nextUnit t) |>.finish

end Sys2Proof.Machine
end

