-- ==== Sys2Proof/Machine/Decoder.lean ====
section
/-! DEFINITION. The decode command DEC (42_decode). -/

namespace Sys2Proof.Machine

/-- `D_CHUNK <- 0 ; D_BITS <- 0`, and IPOS at the first unit (R102, R18). -/
def State.startDec (s : State) : State := { s with dChunk := 0, dBits := 0, ipos := 0 }

/-- `D_CHUNK <- ((D_CHUNK << 5) | v)[11:0] ; D_BITS <- D_BITS + 5` (R104). -/
def State.decGrow (s : State) (v : Index) : State :=
  { s with
    dChunk := BitVec.ofNat 12 ((s.dChunk.toNat <<< 5) ||| v.toNat)
    dBits := BitVec.ofNat 4 (s.dBits.toNat + 5) }

/-- A whole byte is held: `D_BITS <- D_BITS - 8`, emit `(D_CHUNK >> D_BITS)[7:0]`, `D_CHUNK <- D_CHUNK & mask(D_BITS)`
(R104). -/
def State.decOutput (s : State) : State :=
  let bits := s.dBits.toNat - 8
  let t := { s with dBits := BitVec.ofNat 4 bits }.emit (BitVec.ofNat 8 (s.dChunk.toNat >>> bits))
  { t with dChunk := BitVec.ofNat 12 (s.dChunk.toNat &&& lowMask bits) }

/-- The symbol step, part 2: accumulate, and emit when `D_BITS > 7` (R104). -/
def State.decAccumulate (s : State) (v : Index) : State :=
  let t := s.decGrow v
  if t.dBits.toNat > 7 then t.decOutput else t

/-- The symbol step `DecSym(c)`: a character that is not in the alphabet is put in ERRCHAR and raises InvalidCharacter (R103);
any other is accumulated (R104). -/
def State.decSym (s : State) (c : Byte) : Flow :=
  match s.revAt c with
  | none => .raised ({ s with errchar := c }.raise .invalidCharacter)
  | some v => .going (s.decAccumulate v)

/-- The symbol steps over the `n` units from IPOS on, ending at the first that raises (R101, R103, R18). -/
def decLoop : Nat → State → Flow
  | 0, s => .going s
  | n + 1, s => (s.decSym (s.inAt s.ipos)).andThen fun t => decLoop n t.nextUnit

/-- `OUT[OLEN-1] <- OUT[OLEN-1] | zext_8(D_CHUNK & mask(D_BITS))` (R107). -/
def State.decMerge (s : State) : State :=
  { s with
    out := s.out.set (s.olen - 1)
      (s.outAt (s.olen - 1) ||| BitVec.ofNat 8 (s.dChunk.toNat &&& lowMask s.dBits.toNat)) }

/-- The end of the input `DecFinal()`: leftover bits with no byte to receive them raise InvalidInput (R106); otherwise they are
merged into the last byte (R107). -/
def State.decFinal (s : State) : Flow :=
  if s.dBits.toNat > 0 then
    if s.olen = 0 then .raised (s.raise .invalidInput) else .going s.decMerge
  else .going s

/-- `DEC` (R101). -/
def execDec (s : State) : Host.Outcome State Fault Refusal :=
  (s.beginCommand.requireCodec.andThen fun t => (decLoop t.len t.startDec).andThen State.decFinal).finish

end Sys2Proof.Machine
end

