-- ==== Sys2Proof/Machine/Encode.lean ====
section
/-! DEFINITION. The encode command ENC (41_encode). Each formula is computed on natural numbers and narrowed where the
pseudocode writes a slice or a register (00_scope R6). -/

namespace Sys2Proof.Machine

/-- `E_CARRY <- 0 ; E_BITS <- 0`, and IPOS at the first unit (R87, R18). -/
def State.startEnc (s : State) : State := { s with eCarry := 0, eBits := 0, ipos := 0 }

/-- Step 1: `E_BITS <- E_BITS + 3` (R88). -/
def State.encGrow (s : State) : State := { s with eBits := BitVec.ofNat 3 (s.eBits.toNat + 3) }

/-- The first index of a byte step: `((E_CARRY << (8 - E_BITS)) | (b >> E_BITS))[4:0]`, after step 1 (R88). -/
def State.encIndex (s : State) (b : Byte) : Index :=
  BitVec.ofNat 5 ((s.eCarry.toNat <<< (8 - s.eBits.toNat)) ||| (b.toNat >>> s.eBits.toNat))

/-- Step 3: `E_CARRY <- b & mask(E_BITS)` (R88). -/
def State.encKeep (s : State) (b : Byte) : State :=
  { s with eCarry := BitVec.ofNat 7 (b.toNat &&& lowMask s.eBits.toNat) }

/-- Step 4 when a second group is there: `E_BITS <- E_BITS - 5`, emit `FWD[(E_CARRY >> E_BITS)[4:0]]`,
`E_CARRY <- E_CARRY & mask(E_BITS)` (R88). -/
def State.encSecond (s : State) : State :=
  let bits := s.eBits.toNat - 5
  let t := { s with eBits := BitVec.ofNat 3 bits }.emit (s.fwdAt (BitVec.ofNat 5 (s.eCarry.toNat >>> bits)))
  { t with eCarry := BitVec.ofNat 7 (s.eCarry.toNat &&& lowMask bits) }

/-- Step 4: "If the accumulated carry bit-count exceeds 4" (R88). -/
def State.encMore (s : State) : State := if s.eBits.toNat > 4 then s.encSecond else s

/-- The byte step `EncByte(b)` (R88). -/
def State.encByte (s : State) (b : Byte) : State :=
  let t := s.encGrow
  ((t.emit (t.fwdAt (t.encIndex b))).encKeep b).encMore

/-- The byte steps over the `n` units from IPOS on (R86, R18). -/
def encLoop : Nat → State → State
  | 0, s => s
  | n + 1, s => encLoop n (s.encByte (s.inAt s.ipos)).nextUnit

/-- The final step `EncFinal()`: the leftover bits in the high positions of one last index (R89, C1). -/
def State.encFinal (s : State) : State :=
  if s.eBits.toNat > 0 then
    s.emit (s.fwdAt (BitVec.ofNat 5 (s.eCarry.toNat <<< (5 - s.eBits.toNat))))
  else s

/-- `ENC` (R86). -/
def execEnc (s : State) : Host.Outcome State Fault Refusal :=
  (s.beginCommand.requireCodec.andThen fun t => .going (encLoop t.len t.startEnc).encFinal).finish

end Sys2Proof.Machine
end

