-- ==== Sys2Proof/Machine/Dispatch.lean ====
section
/-! DEFINITION. Performing a command: one arm per constructor of Instr. -/

namespace Sys2Proof.Machine

def exec (i : Instr) (s : State) : Host.Outcome State Fault Refusal :=
  match i with
  | .initr a => Sys2Proof.Machine.execInitr a s
  | .initb => Sys2Proof.Machine.execInitb s
  | .enc => Sys2Proof.Machine.execEnc s
  | .dec => Sys2Proof.Machine.execDec s

end Sys2Proof.Machine
end

