-- ==== Sys2Proof/Machine/HostActions.lean ====
section
/-! DEFINITION. The host's actions (20_memory R41): writes, issuing a command word, reads, Reset. -/

namespace Sys2Proof.Machine

/-- `n ≤ MAX_IN`, for a length; an index `i` is in IN when `i + 1` is such a length (R16, R30). Log 3. -/
def State.fitsIn (s : State) (n : Nat) : Bool :=
  match s.maxIn with
  | none => true
  | some m => decide (n ≤ m)

/-- `MAX_OUT = ceil(8 * MAX_IN / 5)` (00_scope R5). -/
def maxOutOf (maxIn : Nat) : Nat := (8 * maxIn + 4) / 5

/-- `n ≤ MAX_OUT` (R16, R30). Log 3. -/
def State.fitsOut (s : State) (n : Nat) : Bool :=
  match s.maxIn with
  | none => true
  | some m => decide (n ≤ maxOutOf m)

/-- `HostWriteIn(i, v)`: `IN[i] <- v` (R41). -/
def hostWriteIn (i : Nat) (v : Byte) (s : State) : Host.Outcome State Fault Refusal :=
  if s.fitsIn (i + 1) then .next { s.redraw with inp := s.inp.set i v } else .fault .inIndex

/-- `HostWriteLen(n)`: `LEN <- n` (R41). -/
def hostWriteLen (n : Nat) (s : State) : Host.Outcome State Fault Refusal :=
  if s.fitsIn n then .next { s.redraw with len := n } else .fault .lenTooLarge

/-- `HostIssue(w)`: perform the command with command word `w`; an undefined `w` raises IllegalCommand, decided before any state
is looked at (R41, R54, R126). -/
def hostIssue (w : Byte) (s : State) : Host.Outcome State Fault Refusal :=
  match decode w with
  | .ok i => exec i s
  | .error _ => .next s.illegalCommand

/-- A host read returns a value and changes nothing of the block (R38, R41). -/
def State.answerWith (s : State) (a : Answer) : State := { s with answer := some a }

/-- What a read of ERRCHAR returns: the offending character while `STATUS.ERR = 2`, any value otherwise (R15, U7). Log 6. -/
def State.readErrChar (s : State) : Byte :=
  if s.err = .invalidCharacter then s.errchar else Config.freeErrChar s.draws

/-- What a read of `OUT[j]` returns: the element while `j < OLEN`, any value otherwise (R32, U5). Log 5. -/
def State.readOut (s : State) (j : Nat) : Byte := if j < s.olen then s.outAt j else Config.freeOut s.draws j

/-- What a read of `ALPHA[k]` returns: `FWD[k]` while `STATUS.VALID = 1`, any value otherwise (R20, U6). Log 7. -/
def State.readAlpha (s : State) (k : Nat) : Byte :=
  if s.valid then s.fwdAt (BitVec.ofNat 5 k) else Config.freeAlpha s.draws k

/-- `HostRead(IN[i])`, `i < MAX_IN` (R41). -/
def hostReadIn (i : Nat) (s : State) : Host.Outcome State Fault Refusal :=
  if s.fitsIn (i + 1) then .next (s.answerWith (.byte (s.inAt i))) else .fault .inIndex

/-- `HostRead(OUT[j])`, `j < MAX_OUT` (R41). -/
def hostReadOut (j : Nat) (s : State) : Host.Outcome State Fault Refusal :=
  if s.fitsOut (j + 1) then .next (s.answerWith (.byte (s.readOut j))) else .fault .outIndex

/-- `HostRead(ALPHA[k])`, `k < 32` (R41). -/
def hostReadAlpha (k : Nat) (s : State) : Host.Outcome State Fault Refusal :=
  if k < 32 then .next (s.answerWith (.byte (s.readAlpha k))) else .fault .alphaIndex

/-- `HostRead` (R41); a read of CMD is refused (R19, U14). -/
def hostRead (t : Target) (s : State) : Host.Outcome State Fault Refusal :=
  match t with
  | .status => .next (s.answerWith (.byte s.status))
  | .errchar => .next (s.answerWith (.byte s.readErrChar))
  | .len => .next (s.answerWith (.count s.len))
  | .olen => .next (s.answerWith (.count s.olen))
  | .cmd => .refused .readOfCmd
  | .inUnit i => hostReadIn i s
  | .outUnit j => hostReadOut j s
  | .alpha k => hostReadAlpha k s

/-- `Reset`: every piece of the block's state at its reset value (R140, 10_state R23). The capacity is no state, and the
host keeps what is its own. Log 3, log 9, log 10. -/
def State.doReset (s : State) : State :=
  { State.reset with
    maxIn := s.maxIn, pending := s.pending, answer := s.answer, draws := s.draws + 1, resets := s.resets + 1 }

/-- The host's action, between commands (R41). -/
def act (a : HostAction) (s : State) : Host.Outcome State Fault Refusal :=
  match a with
  | .writeIn i v => hostWriteIn i v s
  | .writeLen n => hostWriteLen n s
  | .issue w => hostIssue w s
  | .read t => hostRead t s
  | .reset => .next s.doReset

/-- The next action of the host is performed and leaves the list; with none pending the block does nothing (R140). Log 1. -/
def nextAction (s : State) : Host.Outcome State Fault Refusal :=
  match s.pending with
  | [] => .next s
  | a :: rest => act a { s with pending := rest }

end Sys2Proof.Machine
end

