-- ==== Sys2Proof/Machine/Step.lean ====
section
/-! DEFINITION. One step of the machine, and placing a command word where the next step takes it. -/

namespace Sys2Proof.Machine

/-- One step: the host's next action, a whole command at a time (20_memory R40). -/
def step (s : State) : Host.Outcome State Fault Refusal := nextAction s

/-- The command word is the host's next action, before those already pending (log 1). Every command is one 8-bit word
(30_encoding R56), so `nbits` is 8. -/
def State.withFetchWord (s : State) (_nbits w : Nat) : State :=
  { s with pending := .issue (BitVec.ofNat 8 w) :: s.pending }

end Sys2Proof.Machine
end

