-- ==== Sys2Proof/Machine/BitString.lean ====
section
/-! DEFINITION. The bit strings of the data and of the text (20_memory R35), and the groups and bytes cut from them: the words
of the closed forms R93 and R109. No command uses them. -/

namespace Sys2Proof.Machine

/-- The number whose `w` bits, most significant first, are `f 0 .. f (w-1)`. -/
def msbNumber : Nat → (Nat → Bool) → Nat
  | 0, _ => 0
  | w + 1, f => 2 * msbNumber w f + (f w).toNat

/-- Position `p` of the data's bit string, `n` bytes long, with zero bits after its end: `S'` of 41_encode R93. -/
def dataBit (byte : Nat → Byte) (n p : Nat) : Bool := decide (p < 8 * n) && (byte (p / 8)).getMsbD (p % 8)

/-- The group `g_j`: the number with the bits `S'[5j .. 5j+4]` (R93). -/
def dataGroup (byte : Nat → Byte) (n j : Nat) : Index := BitVec.ofNat 5 (msbNumber 5 fun q => dataBit byte n (5 * j + q))

/-- Position `p` of the text's bit string `T` (42_decode R109). -/
def textBit (idx : Nat → Index) (p : Nat) : Bool := (idx (p / 5)).getMsbD (p % 5)

/-- The byte `y_j`: the number with the bits `T[8j .. 8j+7]` (R109). -/
def textByte (idx : Nat → Index) (j : Nat) : Byte := BitVec.ofNat 8 (msbNumber 8 fun q => textBit idx (8 * j + q))

/-- The number `t` of the `r = 5n - 8k` trailing bits `T[8k .. 8k+r-1]`, `k = floor(5n / 8)` (R109). -/
def textTail (idx : Nat → Index) (n : Nat) : Byte :=
  BitVec.ofNat 8 (msbNumber (5 * n % 8) fun q => textBit idx (8 * (5 * n / 8) + q))

/-- The number of characters of an encoded text: `ceil(8 * n / 5)` (R92). -/
def textLength (n : Nat) : Nat := (8 * n + 4) / 5

/-- The number of bytes of a decoded text: `floor(5 * n / 8)` (R108). -/
def byteLength (n : Nat) : Nat := 5 * n / 8

end Sys2Proof.Machine
end

