-- ==== Sys2Proof/Machine/Listing.lean ====
section
/-! DEFINITION. The listing notation (30_encoding R58 to R60): lines, the words they assemble to, and the host actions they
stand for. It is notation only; no step reads it. -/

namespace Sys2Proof.Machine

/-- A line of a listing. -/
inductive Line where
  /-- `INITR <name>`. -/
  | initrName (a : Builtin)
  /-- `INITR <number>`. -/
  | initrNumber (n : Nat)
  | initb
  | enc
  | dec
  /-- The pseudo-command `INIT` (R59). -/
  | init
  /-- `.in "text"`. -/
  | dotIn (text : List Char)
  /-- `.inhex b0 b1 ...`. -/
  | dotInhex (bytes : List Byte)
  | dotFeed
  | dotReset
deriving DecidableEq, Repr

/-- A number of INITR is 0 to 3 (R58), and the characters of a `.in` line have ASCII codes (R60). Log 18. -/
def lineWellFormed : Line → Bool
  | .initrNumber n => decide (n ≤ 3)
  | .dotIn text => text.all fun c => decide (c.toNat < 128)
  | _ => true

/-- The command of a line, where it has one (R58, R59). -/
def lineInstr : Line → Option Instr
  | .initrName a => some (.initr a)
  | .initrNumber n => if n ≤ 3 then some (.initr (builtinOfSel (BitVec.ofNat 2 n))) else none
  | .initb => some .initb
  | .enc => some .enc
  | .dec => some .dec
  | .init => some (.initr .default)
  | .dotIn _ => none
  | .dotInhex _ => none
  | .dotFeed => none
  | .dotReset => none

/-- The assembled form of a line: its one command word; a directive assembles to none (R58, R60). -/
def lineWord (l : Line) : Option Byte := (lineInstr l).map encode

/-- `IN[i] <- v` for each unit of a list, the first at index `i`. -/
def writesFrom (i : Nat) : List Byte → List HostAction
  | [] => []
  | v :: vs => .writeIn i v :: writesFrom (i + 1) vs

/-- The result `OUT[0..OLEN-1]` of the latest command. -/
def State.result (s : State) : List Byte := (List.range s.olen).map s.outAt

/-- The host actions a line stands for in a state (R60; a command line issues its word). -/
def lineActions (s : State) : Line → List HostAction
  | .dotIn text => .writeLen text.length :: writesFrom 0 (text.map fun c => BitVec.ofNat 8 c.toNat)
  | .dotInhex bytes => .writeLen bytes.length :: writesFrom 0 bytes
  | .dotFeed => writesFrom 0 s.result ++ [.writeLen s.olen]
  | .dotReset => [.reset]
  | l => match lineWord l with
    | some w => [.issue w]
    | none => []

end Sys2Proof.Machine
end

