-- ==== Sys2Proof/Safety.lean ====
section
/-! DEFINITION. What holds of every safe state of the block: the invariants the spec gives, in the terms the statements use. -/

namespace Sys2Proof.Machine

/-- The buffers are in canonical form. -/
def BuffersCanonical (s : State) : Prop := s.inp.wf ∧ s.out.wf

/-- The three clauses of 10_state R12: exactly 32 entries of REV hit, REV inverts FWD, and FWD inverts REV. -/
def TablesInverse (s : State) : Prop :=
  (Finset.univ.filter fun c : Fin 256 => (s.rev[c.val]).isSome).card = 32 ∧
  (∀ k : Index, s.revAt (s.fwdAt k) = some k) ∧
  (∀ (c : Byte) (k : Index), s.revAt c = some k → s.fwdAt k = c)

/-- "Invariant while `VALID = 1`" (R12). -/
def CodecSound (s : State) : Prop := s.valid = true → TablesInverse s

/-- The eight values that STATUS takes (95_test_vectors, opening paragraph). -/
def StatusLegal (s : State) : Prop :=
  s.status ∈ ([0x00, 0x01, 0x02, 0x05, 0x07, 0x08, 0x0A, 0x0B] : List Byte)

/-- `LEN ≤ MAX_IN` (R16). -/
def LengthFits (s : State) : Prop := s.fitsIn s.len = true

/-- `OLEN ≤ MAX_OUT` (R16), every unit of the result has been written (R32), and an error leaves no result (R120). -/
def ResultHeld (s : State) : Prop :=
  s.fitsOut s.olen = true ∧ (∀ j, j < s.olen → (s.out.get? j).isSome = true) ∧ (s.err ≠ .none → s.olen = 0)

/-- While `STATUS.ERR = 2` there is a codec and ERRCHAR holds a character that is not in its alphabet (R15, R103). -/
def ErrcharBacked (s : State) : Prop :=
  s.err = .invalidCharacter → s.valid = true ∧ s.revAt s.errchar = none

/-- The ranges of the working registers between elements (R17, R91, R105). -/
def WorkBounded (s : State) : Prop :=
  s.eBits.toNat ≤ 4 ∧ s.eCarry.toNat < 2 ^ s.eBits.toNat ∧ s.dBits.toNat ≤ 7 ∧ s.dChunk.toNat < 2 ^ s.dBits.toNat

/-- Every invariant of the block. -/
structure Inv (s : State) : Prop where
  buffers : BuffersCanonical s
  codec : CodecSound s
  status : StatusLegal s
  length : LengthFits s
  result : ResultHeld s
  errchar : ErrcharBacked s
  work : WorkBounded s

/-- A codec as a construction leaves it: VALID is 1 and REV gives back the index of every character of FWD. -/
def HasCodec (s : State) : Prop := s.valid = true ∧ ∀ k : Index, s.revAt (s.fwdAt k) = some k

/-- Every unit of the input is a character of the codec's alphabet. -/
def InputInAlphabet (s : State) : Prop := ∀ i, i < s.len → (s.revAt (s.inAt i)).isSome = true

/-- The 5-bit index of the character at position `i` of the input (42_decode R109: `v_j`). -/
def inputIndex (s : State) (i : Nat) : Index := (s.revAt (s.inAt i)).getD 0

/-- The 32 characters of the alphabet in IN are distinct (40_construct R76). -/
def AlphabetDistinct (s : State) : Prop := ∀ i j, i < 32 → j < 32 → s.inAt i = s.inAt j → i = j

/-- The tables that a successful construction leaves for an alphabet: `FWD[i]` is character `i`, `REV` gives back the index of
each such character, and misses for every other code (40_construct R70). -/
def TablesFrom (char : Nat → Byte) (t : State) : Prop :=
  (∀ k : Index, t.fwdAt k = char k.toNat) ∧
  (∀ k : Index, t.revAt (char k.toNat) = some k) ∧
  (∀ c : Byte, (∀ k : Index, char k.toNat ≠ c) → t.revAt c = none)

/-- The seven legal command words (30_encoding R54). -/
def legalWords : List Byte := [0x10, 0x11, 0x12, 0x13, 0x20, 0x30, 0x40]

/-- The command words of the two construction commands (30_encoding R52). -/
def constructionWords : List Byte := [0x10, 0x11, 0x12, 0x13, 0x20]

end Sys2Proof.Machine
end

