-- ==== Sys2Proof/Certificates/Slice0/Obligations.lean ====
section
/-! DEFINITION. The statements for the provers, one definition each; each docstring names the rule or section it formalises. -/

open Sys2Proof Sys2Proof.Machine

/-! ## Command words -/

/-- 30_encoding R52 and 95_test_vectors 2.1: words written out from the opcode map, legal and illegal. -/
def Obligations.WordsOfTheOpcodeMapDecode : Prop :=
  decode 0x10 = .ok (.initr .default) ∧ decode 0x11 = .ok (.initr .rfc4648) ∧ decode 0x12 = .ok (.initr .exthex) ∧
  decode 0x13 = .ok (.initr .natarea) ∧ decode 0x20 = .ok .initb ∧ decode 0x30 = .ok .enc ∧ decode 0x40 = .ok .dec ∧
  decode 0x00 = .error .operationCode ∧ decode 0x14 = .error .reservedBits ∧ decode 0x21 = .error .selector

/-- 30_encoding R52, R54: the words that decode are exactly the seven legal ones, which are exactly the words whose fields
obey R50, and no word matches two rows. -/
def Obligations.ExactlySevenWordsDecode : Prop :=
  ∀ w : Byte,
    ((∃ i, decode w = .ok i) ↔ w ∈ legalWords) ∧ (wellFormedWord w = true ↔ w ∈ legalWords) ∧
    ∀ r₁ ∈ opcodeRows, ∀ r₂ ∈ opcodeRows, r₁.matchesWord w = true → r₂.matchesWord w = true → r₁ = r₂

/-- 30_encoding R50 to R52: decoding the encoded command gives it back, every operand included, and a word that decodes is the
encoding of what it decodes to. -/
def Obligations.DecodeAndEncodeAgree : Prop :=
  (∀ i : Instr, decode (encode i) = .ok i) ∧ ∀ (w : Byte) (i : Instr), decode w = .ok i → encode i = w

/-- 30_encoding R58, R59: a command line assembles to the word of its command; INIT assembles to 0x10; a directive to none. -/
def Obligations.ListingLinesAssemble : Prop :=
  lineWord .init = some 0x10 ∧ (∀ a, lineWord (.initrName a) = some (encode (.initr a))) ∧
  lineWord (.initrNumber 0) = lineWord (.initrName .default) ∧ lineWord (.initrNumber 1) = lineWord (.initrName .rfc4648) ∧
  lineWord (.initrNumber 2) = lineWord (.initrName .exthex) ∧ lineWord (.initrNumber 3) = lineWord (.initrName .natarea) ∧
  lineWord .initb = some 0x20 ∧ lineWord .enc = some 0x30 ∧ lineWord .dec = some 0x40 ∧
  (∀ text, lineWord (.dotIn text) = none) ∧ (∀ bytes, lineWord (.dotInhex bytes) = none) ∧
  lineWord .dotFeed = none ∧ lineWord .dotReset = none

/-! ## The step and the host's actions -/

/-- 20_memory R40, R41: when the host's next action issues a word that decodes, the step is the command performed in the state
whose pending list has lost that action. The pending list is the model's own (log 1). -/
def Obligations.StepRunsTheDecodedCommand : Prop :=
  ∀ (s : State) (w : Byte) (i : Instr) (rest : List HostAction), decode w = .ok i →
    step { s with pending := .issue w :: rest } = exec i { s with pending := rest }

/-- 70_reset_and_hazards R140: with no action of the host pending the block does nothing (log 1). -/
def Obligations.IdleStepChangesNothing : Prop := ∀ s : State, s.pending = [] → step s = .next s

/-- 30_encoding R54: the illegal words are those outside the seven legal ones, told by their fields, 249 in number; issuing one
sets ERR to 5 and OLEN to 0 and changes nothing else of the block. The counter draws, which the step also advances, is the
model's own (log 10). -/
def Obligations.IllegalWordRaisesIllegalCommand : Prop :=
  (∀ w : Byte, w ∉ legalWords ↔ opcLegal w = false ∨ rsvLegal w = false ∨ selLegal w = false) ∧
  (Finset.univ.filter fun n : Fin 256 => BitVec.ofNat 8 n.val ∉ legalWords).card = 249 ∧
  ∀ (s : State) (w : Byte) (rest : List HostAction), w ∉ legalWords →
    step { s with pending := .issue w :: rest } =
      .next { s with pending := rest, err := .illegalCommand, olen := 0, draws := s.draws + 1 }

/-- 20_memory R41: a host write to IN changes that element alone, a host write to LEN changes LEN alone; a write outside the
allowed values stops with a fault, which is the model's choice (log 3). -/
def Obligations.HostWritesTakeEffect : Prop :=
  (∀ (s : State) (i : Nat) (v : Byte) (rest : List HostAction),
    if s.fitsIn (i + 1) then
      ∃ t, step { s with pending := .writeIn i v :: rest } = .next t ∧ t.inAt i = v ∧ (∀ j, j ≠ i → t.inAt j = s.inAt j) ∧
        t = { s with pending := rest, inp := t.inp, draws := s.draws + 1 }
    else step { s with pending := .writeIn i v :: rest } = .fault .inIndex) ∧
  (∀ (s : State) (n : Nat) (rest : List HostAction),
    step { s with pending := .writeLen n :: rest } =
      if s.fitsIn n then .next { s with pending := rest, len := n, draws := s.draws + 1 } else .fault .lenTooLarge)

/-- 20_memory R41, 10_state R14 to R16 and R20: every host read of a register or of an element that exists answers, the block's
state left as it is, and with the register or element where the spec gives the value. Where it gives none (ERRCHAR while ERR is not
2, OUT at or above OLEN, ALPHA while VALID is 0) the read answers a byte of which nothing is said (log 5, log 6, log 7). A read of
an element that does not exist faults (log 3), a read of CMD is refused (log 15): the model's choices, as is the answer (log 2). -/
def Obligations.HostReadsReturnTheirRegister : Prop :=
  ∀ (s : State) (rest : List HostAction),
    let reads := fun t => step { s with pending := .read t :: rest }
    let answers := fun a => Host.Outcome.next (φ := Fault) (ρ := Refusal) { s with pending := rest, answer := some a }
    reads .status = answers (.byte s.status) ∧ reads .len = answers (.count s.len) ∧ reads .olen = answers (.count s.olen) ∧
    (∃ v, reads .errchar = answers (.byte v) ∧ (s.err = .invalidCharacter → v = s.errchar)) ∧
    (∀ i, reads (.inUnit i) = if s.fitsIn (i + 1) then answers (.byte (s.inAt i)) else .fault .inIndex) ∧
    (∀ j, if s.fitsOut (j + 1) then ∃ v, reads (.outUnit j) = answers (.byte v) ∧ (j < s.olen → v = s.outAt j)
      else reads (.outUnit j) = .fault .outIndex) ∧
    (∀ k, if k < 32 then ∃ v, reads (.alpha k) = answers (.byte v) ∧ (s.valid = true → v = s.fwdAt (BitVec.ofNat 5 k))
      else reads (.alpha k) = .fault .alphaIndex) ∧
    reads .cmd = .refused .readOfCmd

/-- 20_memory R38: "No read has a side effect": whatever a read names, it changes nothing but the answer, and repeated at once
it returns the same. -/
def Obligations.ReadsHaveNoSideEffect : Prop :=
  ∀ (s t : State) (x : Target) (rest : List HostAction), step { s with pending := .read x :: rest } = .next t →
    t = { s with pending := rest, answer := t.answer } ∧ step { t with pending := .read x :: rest } = .next t

/-- 70_reset_and_hazards R140: Reset leaves STATUS, OLEN and LEN at 0. The pending actions, the answer and the capacity are not
the block's state and stay (log 1, log 2, log 3). -/
def Obligations.ResetClearsStatusAndLengths : Prop :=
  ∀ (s : State) (rest : List HostAction), ∃ t, step { s with pending := .reset :: rest } = .next t ∧
    t.status = 0 ∧ t.valid = false ∧ t.err = .none ∧ t.olen = 0 ∧ t.len = 0 ∧
    t.pending = rest ∧ t.answer = s.answer ∧ t.maxIn = s.maxIn

/-- 10_state R23: the values the spec gives at reset. -/
def Obligations.ResetStateHasTheGivenValues : Prop :=
  State.reset.valid = false ∧ State.reset.err = .none ∧ State.reset.status = 0 ∧ State.reset.olen = 0 ∧ State.reset.len = 0

/-- 10_state R14, 60_exceptions R121: the layout of STATUS and the code of each outcome. -/
def Obligations.StatusWordLayout : Prop :=
  (∀ s : State, s.status.extractLsb' 4 4 = 0 ∧ s.status.extractLsb' 1 3 = errBits s.err ∧ s.status.getLsbD 0 = s.valid) ∧
  errBits .none = 0 ∧ errBits .invalidAlphabet = 1 ∧ errBits .invalidCharacter = 2 ∧ errBits .invalidInput = 3 ∧
  errBits .noCodec = 4 ∧ errBits .illegalCommand = 5

/-! ## Construction -/

/-- 10_state R13, 40_construct R73: the 32 characters of each built-in alphabet are distinct. -/
def Obligations.BuiltinAlphabetsAreDistinct : Prop := ∀ (a : Builtin) (j k : Index), romAt a j = romAt a k → j = k

/-- 40_construct section 2 (R72, R73): INITR always completes, with the tables of its alphabet, VALID 1, ERR 0 and OLEN 0. -/
def Obligations.InitrBuildsTheBuiltinTables : Prop :=
  ∀ (a : Builtin) (s : State), ∃ t, exec (.initr a) s = .next t ∧
    TablesFrom (fun i => romAt a (BitVec.ofNat 5 i)) t ∧ t.valid = true ∧ t.err = .none ∧ t.olen = 0

/-- 40_construct R70, R72: what INITR leaves unchanged: all but FWD, REV, VALID, ERR and OLEN, IN among it. That OUT keeps its
units is log 5, that the working registers stay is log 12, the counter draws is log 10: the model's own. -/
def Obligations.InitrFrame : Prop :=
  ∀ (a : Builtin) (s t : State), exec (.initr a) s = .next t →
    t = { s with fwd := t.fwd, rev := t.rev, valid := t.valid, err := t.err, olen := t.olen, draws := s.draws + 1 } ∧
    (∀ i, t.inAt i = s.inAt i) ∧ ∀ j, t.out.get? j = s.out.get? j

/-- 40_construct R74, R70: INITB with 32 distinct characters in IN completes with their tables. -/
def Obligations.InitbBuildsTheTablesOfTheBuffer : Prop :=
  ∀ s : State, s.len = 32 → AlphabetDistinct s → ∃ t, exec .initb s = .next t ∧
    TablesFrom s.inAt t ∧ t.valid = true ∧ t.err = .none ∧ t.olen = 0

/-- 40_construct section 3 (R75): a LEN other than 32 raises InvalidAlphabet, whatever IN holds: the whole next state is given,
and nothing in it reads IN. FWD and REV are the free tables of log 8, IPOS at 0 is log 12, OUT kept is log 5
and the counter draws is log 10: the model's choices. -/
def Obligations.InitbRejectsAWrongLength : Prop :=
  ∀ s : State, s.len ≠ 32 → exec .initb s = .next { s with
    valid := false, err := .invalidAlphabet, olen := 0, ipos := 0, draws := s.draws + 1,
    fwd := Config.freeFwd (s.draws + 1), rev := Config.freeRev (s.draws + 1) }

/-- 40_construct section 3 (R76): with LEN = 32, a character met again raises InvalidAlphabet when the pass reaches the second of
them; IPOS is then the least index whose character occurs at a smaller one, which the model reads from R18 (log 12). -/
def Obligations.InitbRejectsARepeatedCharacter : Prop :=
  ∀ (s : State) (i j : Nat), s.len = 32 → i < 32 → j < i → s.inAt i = s.inAt j →
    (∀ i' j', i' < i → j' < i' → s.inAt i' ≠ s.inAt j') →
    ∃ t, exec .initb s = .next t ∧ t.err = .invalidAlphabet ∧ t.valid = false ∧ t.olen = 0 ∧ t.ipos = i

/-- 40_construct R70, R74: what INITB leaves unchanged, whether it raises or not: all but FWD, REV, VALID, ERR, OLEN and IPOS.
That OUT keeps its units is log 5, the working registers after a command are log 12, the counter draws is log 10: the model's
own. -/
def Obligations.InitbFrame : Prop :=
  ∀ s t : State, exec .initb s = .next t →
    t = { s with fwd := t.fwd, rev := t.rev, valid := t.valid, err := t.err, olen := t.olen, ipos := t.ipos, draws := s.draws + 1 } ∧
    (∀ i, t.inAt i = s.inAt i) ∧ ∀ j, t.out.get? j = s.out.get? j

/-- 40_construct R74 (its example, for each built-in alphabet): INITB on the characters of a built-in alphabet leaves the tables
that INITR leaves. -/
def Obligations.InitbOnABuiltinAlphabetAgreesWithInitr : Prop :=
  ∀ (a : Builtin) (s : State), s.len = 32 → (∀ k : Index, s.inAt k.toNat = romAt a k) →
    ∃ t u, exec .initb s = .next t ∧ exec (.initr a) s = .next u ∧
      (∀ k, t.fwdAt k = u.fwdAt k) ∧ (∀ c, t.revAt c = u.revAt c) ∧ t.status = 0x01 ∧ u.status = 0x01

/-- 40_construct R78, 70_reset_and_hazards R147: after a failed INITB there is no codec, also where there was one, and ENC and
DEC raise NoCodec. -/
def Obligations.FailedInitbLosesTheCodec : Prop :=
  ∀ s t : State, exec .initb s = .next t → t.err ≠ .none →
    t.valid = false ∧ t.err = .invalidAlphabet ∧ t.olen = 0 ∧
    ∀ i ∈ [Instr.enc, Instr.dec], ∃ u, exec i t = .next u ∧ u.err = .noCodec ∧ u.olen = 0

/-! ## Errors -/

/-- 60_exceptions R122 with R126: the exact cause of every error of every command. -/
def Obligations.ErrorCausesAreExact : Prop :=
  ∀ s : State,
    (∀ a, ∃ t, exec (.initr a) s = .next t ∧ t.err = .none) ∧
    (∃ t, exec .initb s = .next t ∧
      (t.err = .none ↔ s.len = 32 ∧ AlphabetDistinct s) ∧ (t.err = .invalidAlphabet ↔ ¬ (s.len = 32 ∧ AlphabetDistinct s))) ∧
    (∃ t, exec .enc s = .next t ∧ (t.err = .none ↔ s.valid = true) ∧ (t.err = .noCodec ↔ s.valid = false)) ∧
    (∃ t, exec .dec s = .next t ∧
      (t.err = .noCodec ↔ s.valid = false) ∧
      (t.err = .invalidCharacter ↔ s.valid = true ∧ ∃ i, i < s.len ∧ s.revAt (s.inAt i) = none) ∧
      (t.err = .invalidInput ↔ s.valid = true ∧ s.len = 1 ∧ s.revAt (s.inAt 0) ≠ none) ∧
      (t.err = .none ↔ s.valid = true ∧ InputInAlphabet s ∧ s.len ≠ 1)) ∧
    (∀ w rest, w ∉ legalWords → ∃ t, step { s with pending := .issue w :: rest } = .next t ∧ t.err = .illegalCommand)

/-- 60_exceptions R122: ENC and DEC without a codec raise NoCodec before any input is read, and change nothing else. The
counter draws is the model's own (log 10); OUT and the working registers are kept by log 5 and log 12. -/
def Obligations.NoCodecIsCheckedFirst : Prop :=
  ∀ s : State, s.valid = false → ∀ i ∈ [Instr.enc, Instr.dec],
    exec i s = .next { s with err := .noCodec, olen := 0, draws := s.draws + 1 }

/-- 60_exceptions R120: every command, from every state, ends in success with its result in `OUT[0..OLEN-1]`, every unit of it
written, or in one error with no result. -/
def Obligations.EveryCommandEndsOneOfTwoWays : Prop :=
  ∀ (i : Instr) (s : State), ∃ t, exec i s = .next t ∧
    ((t.err = .none ∧ ∀ j, j < t.olen → (t.out.get? j).isSome = true) ∨ (t.err ≠ .none ∧ t.olen = 0))

/-! ## ENC -/

/-- 41_encode section 2 and the derivation of section 3, which the spec marks as its own inference (R88, R90, R91): the byte
step with `c` carry bits held emits the carry above the top `5 - c` bits of the byte, a second symbol when `c ≥ 2`, and keeps
the bits of the byte that are left. -/
def Obligations.EncByteStepRegroups : Prop :=
  ∀ (s : State) (b : Byte), s.eBits.toNat ≤ 4 → s.eCarry.toNat < 2 ^ s.eBits.toNat →
    let c := s.eBits.toNat
    let t := s.encByte b
    t.eBits.toNat = (c + 3) % 5 ∧ t.eCarry.toNat = b.toNat % 2 ^ t.eBits.toNat ∧
    t.out.get? s.olen = some (s.fwdAt (BitVec.ofNat 5 (s.eCarry.toNat * 2 ^ (5 - c) + b.toNat / 2 ^ (c + 3)))) ∧
    (c ≤ 1 → t.olen = s.olen + 1) ∧
    (2 ≤ c → t.olen = s.olen + 2 ∧
      t.out.get? (s.olen + 1) = some (s.fwdAt (BitVec.ofNat 5 (b.toNat / 2 ^ (c - 2) % 32))))

/-- 41_encode section 3, the length law R92: OLEN is `ceil(8 * LEN / 5)`. What the loop and the final step emit, and the table
of `LEN mod 5` (E_BITS at the end, pad bits of the last group, `OLEN mod 8`), the spec infers from R91, which it marks as its
own inference. E_BITS is read off the state after the command, where R21 gives it no meaning: the model's reading (log 12). -/
def Obligations.EncLengthLaw : Prop :=
  ∀ s : State, s.valid = true → ∃ t, exec .enc s = .next t ∧ t.err = .none ∧
    t.olen = textLength s.len ∧
    (encLoop s.len s.beginCommand.startEnc).olen = 8 * s.len / 5 ∧
    (s.len % 5 = 0 → t.olen = 8 * s.len / 5) ∧ (s.len % 5 ≠ 0 → t.olen = 8 * s.len / 5 + 1) ∧
    [(0, 0, 0), (3, 2, 2), (1, 4, 4), (4, 1, 5), (2, 3, 7)][s.len % 5]? =
      some (t.eBits.toNat, 5 * t.olen - 8 * s.len, t.olen % 8)

/-- 41_encode section 3, the closed form R93, which the spec marks as its own inference: ENC writes `FWD[g_j]` for the
successive groups of the data's padded bit string; and the groups of a block of five bytes, and the last groups of shorter
ones, have the bits of the rule's table. -/
def Obligations.EncWritesTheGroupsOfTheBitString : Prop :=
  (∀ s : State, s.valid = true → ∃ t, exec .enc s = .next t ∧ t.err = .none ∧ t.olen = textLength s.len ∧
    ∀ j, j < textLength s.len → t.out.get? j = some (s.fwdAt (dataGroup s.inAt s.len j))) ∧
  (∀ b : Nat → Byte,
    dataGroup b 5 0 = (b 0).extractLsb' 3 5 ∧ dataGroup b 5 1 = (b 0).extractLsb' 0 3 ++ (b 1).extractLsb' 6 2 ∧
    dataGroup b 5 2 = (b 1).extractLsb' 1 5 ∧ dataGroup b 5 3 = (b 1).extractLsb' 0 1 ++ (b 2).extractLsb' 4 4 ∧
    dataGroup b 5 4 = (b 2).extractLsb' 0 4 ++ (b 3).extractLsb' 7 1 ∧ dataGroup b 5 5 = (b 3).extractLsb' 2 5 ∧
    dataGroup b 5 6 = (b 3).extractLsb' 0 2 ++ (b 4).extractLsb' 5 3 ∧ dataGroup b 5 7 = (b 4).extractLsb' 0 5 ∧
    dataGroup b 1 1 = (b 0).extractLsb' 0 3 ++ (0 : BitVec 2) ∧ dataGroup b 2 3 = (b 1).extractLsb' 0 1 ++ (0 : BitVec 4) ∧
    dataGroup b 3 4 = (b 2).extractLsb' 0 4 ++ (0 : BitVec 1) ∧ dataGroup b 4 6 = (b 3).extractLsb' 0 2 ++ (0 : BitVec 3))

/-- 41_encode R94 (95_test_vectors T2): with a sound codec every character of ENC's result is in the codec's alphabet: DEC's
lookup finds it. -/
def Obligations.EncResultIsInTheAlphabet : Prop :=
  ∀ s : State, HasCodec s → ∃ t, exec .enc s = .next t ∧ t.err = .none ∧
    ∀ j, j < t.olen → ∃ g : Index, t.out.get? j = some (t.fwdAt g) ∧ t.revAt (t.fwdAt g) = some g

/-- 41_encode R85: what ENC leaves unchanged: all but OUT, OLEN, ERR and the working registers it uses. That the units of OUT
at and above the result, which R32 calls unspecified, hold what they held is the model's choice (log 5); DEC's working
registers are kept by log 12, and the counter draws is the model's own (log 10). -/
def Obligations.EncFrame : Prop :=
  ∀ s t : State, exec .enc s = .next t →
    t = { s with
      out := t.out, olen := t.olen, err := t.err, eCarry := t.eCarry, eBits := t.eBits, ipos := t.ipos,
      draws := s.draws + 1 } ∧
    (∀ i, t.inAt i = s.inAt i) ∧ ∀ j, s.valid = false ∨ textLength s.len ≤ j → t.out.get? j = s.out.get? j

/-! ## DEC -/

/-- 42_decode section 3, R108, which the spec marks as its own inference: the length law of a DEC that does not raise, the
trailing bits it merged, and which lengths ENC can produce. The number of trailing bits is read off D_BITS in the state after
the command, where R21 gives it no meaning: the model's reading (log 12). -/
def Obligations.DecLengthLaw : Prop :=
  ∀ s : State, s.valid = true → InputInAlphabet s → s.len ≠ 1 → ∃ t, exec .dec s = .next t ∧ t.err = .none ∧
    t.olen = byteLength s.len ∧ t.dBits.toNat = 5 * s.len % 8 ∧
    [0, 5, 2, 7, 4, 1, 6, 3][s.len % 8]? = some t.dBits.toNat ∧
    ((∃ n, textLength n = s.len) ↔ s.len % 8 ∈ [0, 2, 4, 5, 7])

/-- 42_decode section 3, the closed form R109, which the spec marks as its own inference: DEC writes the successive bytes of
the text's bit string, the trailing bits OR-ed into the last one; with trailing bits and no byte it raises InvalidInput; and
the bytes of eight symbols have the bits of the rule's table. -/
def Obligations.DecWritesTheBytesOfTheBitString : Prop :=
  (∀ s : State, s.valid = true → InputInAlphabet s → s.len ≠ 1 → ∃ t, exec .dec s = .next t ∧ t.err = .none ∧
    t.olen = byteLength s.len ∧
    ∀ j, j < byteLength s.len → t.out.get? j = some
      (if j + 1 = byteLength s.len then textByte (inputIndex s) j ||| textTail (inputIndex s) s.len
        else textByte (inputIndex s) j)) ∧
  (∀ s : State, s.valid = true → InputInAlphabet s → 0 < 5 * s.len % 8 → byteLength s.len = 0 →
    ∃ t, exec .dec s = .next t ∧ t.err = .invalidInput ∧ t.olen = 0) ∧
  (∀ v : Nat → Index,
    textByte v 0 = v 0 ++ (v 1).extractLsb' 2 3 ∧ textByte v 1 = (v 1).extractLsb' 0 2 ++ v 2 ++ (v 3).extractLsb' 4 1 ∧
    textByte v 2 = (v 3).extractLsb' 0 4 ++ (v 4).extractLsb' 1 4 ∧
    textByte v 3 = (v 4).extractLsb' 0 1 ++ v 5 ++ (v 6).extractLsb' 3 2 ∧ textByte v 4 = (v 6).extractLsb' 0 3 ++ v 7)

/-- 42_decode R103: the first character that is not in the alphabet, whatever comes after it, is reported in ERRCHAR, no result
is left, and the alphabet stays readable through ALPHA. -/
def Obligations.DecReportsTheFirstInvalidCharacter : Prop :=
  ∀ (s : State) (i : Nat), s.valid = true → i < s.len → s.revAt (s.inAt i) = none →
    (∀ j, j < i → s.revAt (s.inAt j) ≠ none) →
    ∃ t, exec .dec s = .next t ∧ t.err = .invalidCharacter ∧ t.errchar = s.inAt i ∧ t.olen = 0 ∧
      t.valid = true ∧ ∀ k : Index, t.readAlpha k.toNat = s.fwdAt k

/-- 42_decode section 3 (R106, whose condition the spec marks as its own inference): with a codec and every character in the
alphabet, DEC raises InvalidInput exactly when `LEN = 1`; OLEN is then 0 and ERRCHAR keeps its value. -/
def Obligations.DecRejectsOneCharacter : Prop :=
  ∀ s : State, s.valid = true → InputInAlphabet s → ∃ t, exec .dec s = .next t ∧
    (t.err = .invalidInput ↔ s.len = 1) ∧ (s.len = 1 → t.olen = 0) ∧ t.errchar = s.errchar

/-- 42_decode R100: what DEC leaves unchanged: all but OUT, OLEN, ERR, the working registers it uses, and ERRCHAR, which it
writes only when it raises InvalidCharacter. That the units of OUT at and above the result, which R32 calls unspecified, hold
what they held is the model's choice (log 5); ENC's working registers are kept by log 12, and the counter draws is the model's
own (log 10). -/
def Obligations.DecFrame : Prop :=
  ∀ s t : State, exec .dec s = .next t →
    t = { s with
      out := t.out, olen := t.olen, err := t.err, errchar := t.errchar, dChunk := t.dChunk, dBits := t.dBits, ipos := t.ipos,
      draws := s.draws + 1 } ∧
    (t.err ≠ .invalidCharacter → t.errchar = s.errchar) ∧ (∀ i, t.inAt i = s.inAt i) ∧
    ∀ j, s.valid = false ∨ byteLength s.len ≤ j → t.out.get? j = s.out.get? j

/-! ## Both directions -/

/-- 42_decode R110: DEC, under the codec that encoded and with ENC's result as its input, gives back ENC's input. `t` is the
state after ENC and `u` any state with its codec and its result in IN, however the host brought it there. -/
def Obligations.DecodingTheEncodedTextGivesTheData : Prop :=
  ∀ s t u : State, HasCodec s → exec .enc s = .next t →
    u.fwd = t.fwd → u.rev = t.rev → u.valid = t.valid → u.len = t.olen →
    (∀ j, j < t.olen → some (u.inAt j) = t.out.get? j) →
    ∃ v, exec .dec u = .next v ∧ v.err = .none ∧ v.olen = s.len ∧ ∀ j, j < s.len → v.out.get? j = some (s.inAt j)

/-- 30_encoding R60: the host actions of `.feed`, performed one after another, bring the result of the latest command into IN and
its length into LEN, and leave the codec as it is. -/
def Obligations.FeedBringsTheResultToTheInput : Prop :=
  ∀ s : State, s.fitsIn s.olen = true → ∃ u,
    Host.Core.run Sys2Proof.core (s.olen + 1) { s with pending := lineActions s .dotFeed } = .next u ∧
    u.len = s.olen ∧ (∀ j, j < s.olen → u.inAt j = s.outAt j) ∧ (∀ j, s.olen ≤ j → u.inAt j = s.inAt j) ∧
    u.fwd = s.fwd ∧ u.rev = s.rev ∧ u.valid = s.valid ∧ u.pending = []

/-- 10_state R21, 20_memory R31: a command's outcome depends on the codec and on `IN[0..LEN-1]` alone: two states that agree on
them, whatever their working registers, earlier results, ERR, ERRCHAR and further units of IN, give the same outcome. The tables
are compared where a codec is left. -/
def Obligations.NoStateCrossesCommands : Prop :=
  ∀ (i : Instr) (s s' : State), s.fwd = s'.fwd → s.rev = s'.rev → s.valid = s'.valid → s.len = s'.len →
    (∀ p, p < s.len → s.inAt p = s'.inAt p) →
    ∃ t t', exec i s = .next t ∧ exec i s' = .next t' ∧ t.status = t'.status ∧ t.olen = t'.olen ∧
      (∀ j, j < t.olen → t.out.get? j = t'.out.get? j) ∧ (t.err = .invalidCharacter → t.errchar = t'.errchar) ∧
      (t.valid = true → t.fwd = t'.fwd ∧ t.rev = t'.rev)

/-! ## What every step keeps -/

/-- 10_state R22: only a construction command or Reset changes FWD, REV or VALID. -/
def Obligations.OnlyConstructionChangesTheCodec : Prop :=
  ∀ s t : State, step s = .next t →
    (∀ a rest, s.pending = a :: rest → a ≠ .reset ∧ ∀ w, a = .issue w → w ∉ constructionWords) →
    t.fwd = s.fwd ∧ t.rev = s.rev ∧ t.valid = s.valid

/-- 20_memory R31, 10_state R16: no command changes IN or LEN; only a host write or Reset does. -/
def Obligations.OnlyTheHostChangesTheInput : Prop :=
  ∀ (s t : State) (w : Byte) (rest : List HostAction), step { s with pending := .issue w :: rest } = .next t →
    t.len = s.len ∧ t.inp = s.inp ∧ ∀ i, t.inAt i = s.inAt i

/-- 10_state R15: ERRCHAR is written only by a DEC that raises InvalidCharacter (and by Reset, which leaves it unspecified). -/
def Obligations.OnlyInvalidCharacterWritesErrchar : Prop :=
  ∀ s t : State, step s = .next t → t.errchar ≠ s.errchar →
    (∃ rest, s.pending = .reset :: rest) ∨ ∃ rest, s.pending = .issue 0x40 :: rest ∧ t.err = .invalidCharacter

/-- 20_memory R30, in the model's representation: the buffers keep their canonical form. -/
def Obligations.BuffersStayCanonical : Prop := ∀ s t : State, BuffersCanonical s → step s = .next t → BuffersCanonical t

/-- 10_state R12: every step keeps "while `VALID = 1` exactly 32 entries hit, and REV and FWD are each other's inverse". -/
def Obligations.CodecStaysSound : Prop := ∀ s t : State, CodecSound s → step s = .next t → CodecSound t

/-- 95_test_vectors, opening paragraph, which the spec marks as its own inference: the eight values of STATUS are the only ones
it takes. -/
def Obligations.StatusStaysOneOfEightValues : Prop := ∀ s t : State, StatusLegal s → step s = .next t → StatusLegal t

/-- 10_state R16, 20_memory R46: LEN stays within MAX_IN and OLEN within MAX_OUT, every unit of the result has been written, and
an error leaves no result. -/
def Obligations.LengthsStayWithinTheBuffers : Prop :=
  ∀ s t : State, LengthFits s → ResultHeld s → step s = .next t → LengthFits t ∧ ResultHeld t

/-- 10_state R15, 42_decode R103: while ERR is 2, there is a codec and ERRCHAR is not in its alphabet. -/
def Obligations.ErrcharStaysOutsideTheAlphabet : Prop :=
  ∀ s t : State, ErrcharBacked s → step s = .next t → ErrcharBacked t

/-- 41_encode R91, 42_decode R105, which the spec marks as its own inferences: the working registers keep their ranges. Their
values between commands, where R21 gives them no meaning, are the model's reading (log 12). -/
def Obligations.WorkingRegistersStayBounded : Prop := ∀ s t : State, WorkBounded s → step s = .next t → WorkBounded t

/-- The state after reset meets every invariant (10_state R23; the working registers' and the buffers' parts rest on log 4, log 5
and log 9). -/
def Obligations.ResetMeetsEveryInvariant : Prop := Inv State.reset
end

