-- ==== Sys2Proof/Laws/State.lean ====
section
/-! SUPPORT. One lemma per field per update: what each state operation writes, and that it leaves the other fields alone. -/

namespace Sys2Proof.Machine

variable (s : State)

@[simp] theorem State.emit_fwd (v : Byte) : (s.emit v).fwd = s.fwd := rfl
@[simp] theorem State.emit_rev (v : Byte) : (s.emit v).rev = s.rev := rfl
@[simp] theorem State.emit_valid (v : Byte) : (s.emit v).valid = s.valid := rfl
@[simp] theorem State.emit_err (v : Byte) : (s.emit v).err = s.err := rfl
@[simp] theorem State.emit_errchar (v : Byte) : (s.emit v).errchar = s.errchar := rfl
@[simp] theorem State.emit_olen (v : Byte) : (s.emit v).olen = s.olen + 1 := rfl
@[simp] theorem State.emit_out (v : Byte) : (s.emit v).out = s.out.set s.olen v := rfl
@[simp] theorem State.emit_inp (v : Byte) : (s.emit v).inp = s.inp := rfl
@[simp] theorem State.emit_len (v : Byte) : (s.emit v).len = s.len := rfl
@[simp] theorem State.emit_eCarry (v : Byte) : (s.emit v).eCarry = s.eCarry := rfl
@[simp] theorem State.emit_eBits (v : Byte) : (s.emit v).eBits = s.eBits := rfl
@[simp] theorem State.emit_dChunk (v : Byte) : (s.emit v).dChunk = s.dChunk := rfl
@[simp] theorem State.emit_dBits (v : Byte) : (s.emit v).dBits = s.dBits := rfl
@[simp] theorem State.emit_ipos (v : Byte) : (s.emit v).ipos = s.ipos := rfl
@[simp] theorem State.emit_maxIn (v : Byte) : (s.emit v).maxIn = s.maxIn := rfl
@[simp] theorem State.emit_pending (v : Byte) : (s.emit v).pending = s.pending := rfl
@[simp] theorem State.emit_answer (v : Byte) : (s.emit v).answer = s.answer := rfl
@[simp] theorem State.emit_draws (v : Byte) : (s.emit v).draws = s.draws := rfl
@[simp] theorem State.emit_resets (v : Byte) : (s.emit v).resets = s.resets := rfl

@[simp] theorem State.nextUnit_fwd : (s.nextUnit).fwd = s.fwd := rfl
@[simp] theorem State.nextUnit_rev : (s.nextUnit).rev = s.rev := rfl
@[simp] theorem State.nextUnit_valid : (s.nextUnit).valid = s.valid := rfl
@[simp] theorem State.nextUnit_err : (s.nextUnit).err = s.err := rfl
@[simp] theorem State.nextUnit_errchar : (s.nextUnit).errchar = s.errchar := rfl
@[simp] theorem State.nextUnit_olen : (s.nextUnit).olen = s.olen := rfl
@[simp] theorem State.nextUnit_out : (s.nextUnit).out = s.out := rfl
@[simp] theorem State.nextUnit_inp : (s.nextUnit).inp = s.inp := rfl
@[simp] theorem State.nextUnit_len : (s.nextUnit).len = s.len := rfl
@[simp] theorem State.nextUnit_eCarry : (s.nextUnit).eCarry = s.eCarry := rfl
@[simp] theorem State.nextUnit_eBits : (s.nextUnit).eBits = s.eBits := rfl
@[simp] theorem State.nextUnit_dChunk : (s.nextUnit).dChunk = s.dChunk := rfl
@[simp] theorem State.nextUnit_dBits : (s.nextUnit).dBits = s.dBits := rfl
@[simp] theorem State.nextUnit_ipos : (s.nextUnit).ipos = s.ipos + 1 := rfl
@[simp] theorem State.nextUnit_maxIn : (s.nextUnit).maxIn = s.maxIn := rfl
@[simp] theorem State.nextUnit_pending : (s.nextUnit).pending = s.pending := rfl
@[simp] theorem State.nextUnit_answer : (s.nextUnit).answer = s.answer := rfl
@[simp] theorem State.nextUnit_draws : (s.nextUnit).draws = s.draws := rfl
@[simp] theorem State.nextUnit_resets : (s.nextUnit).resets = s.resets := rfl

@[simp] theorem State.redraw_fwd : (s.redraw).fwd = s.fwd := rfl
@[simp] theorem State.redraw_rev : (s.redraw).rev = s.rev := rfl
@[simp] theorem State.redraw_valid : (s.redraw).valid = s.valid := rfl
@[simp] theorem State.redraw_err : (s.redraw).err = s.err := rfl
@[simp] theorem State.redraw_errchar : (s.redraw).errchar = s.errchar := rfl
@[simp] theorem State.redraw_olen : (s.redraw).olen = s.olen := rfl
@[simp] theorem State.redraw_out : (s.redraw).out = s.out := rfl
@[simp] theorem State.redraw_inp : (s.redraw).inp = s.inp := rfl
@[simp] theorem State.redraw_len : (s.redraw).len = s.len := rfl
@[simp] theorem State.redraw_eCarry : (s.redraw).eCarry = s.eCarry := rfl
@[simp] theorem State.redraw_eBits : (s.redraw).eBits = s.eBits := rfl
@[simp] theorem State.redraw_dChunk : (s.redraw).dChunk = s.dChunk := rfl
@[simp] theorem State.redraw_dBits : (s.redraw).dBits = s.dBits := rfl
@[simp] theorem State.redraw_ipos : (s.redraw).ipos = s.ipos := rfl
@[simp] theorem State.redraw_maxIn : (s.redraw).maxIn = s.maxIn := rfl
@[simp] theorem State.redraw_pending : (s.redraw).pending = s.pending := rfl
@[simp] theorem State.redraw_answer : (s.redraw).answer = s.answer := rfl
@[simp] theorem State.redraw_draws : (s.redraw).draws = s.draws + 1 := rfl
@[simp] theorem State.redraw_resets : (s.redraw).resets = s.resets := rfl

@[simp] theorem State.beginCommand_fwd : (s.beginCommand).fwd = s.fwd := rfl
@[simp] theorem State.beginCommand_rev : (s.beginCommand).rev = s.rev := rfl
@[simp] theorem State.beginCommand_valid : (s.beginCommand).valid = s.valid := rfl
@[simp] theorem State.beginCommand_err : (s.beginCommand).err = .none := rfl
@[simp] theorem State.beginCommand_errchar : (s.beginCommand).errchar = s.errchar := rfl
@[simp] theorem State.beginCommand_olen : (s.beginCommand).olen = 0 := rfl
@[simp] theorem State.beginCommand_out : (s.beginCommand).out = s.out := rfl
@[simp] theorem State.beginCommand_inp : (s.beginCommand).inp = s.inp := rfl
@[simp] theorem State.beginCommand_len : (s.beginCommand).len = s.len := rfl
@[simp] theorem State.beginCommand_eCarry : (s.beginCommand).eCarry = s.eCarry := rfl
@[simp] theorem State.beginCommand_eBits : (s.beginCommand).eBits = s.eBits := rfl
@[simp] theorem State.beginCommand_dChunk : (s.beginCommand).dChunk = s.dChunk := rfl
@[simp] theorem State.beginCommand_dBits : (s.beginCommand).dBits = s.dBits := rfl
@[simp] theorem State.beginCommand_ipos : (s.beginCommand).ipos = s.ipos := rfl
@[simp] theorem State.beginCommand_maxIn : (s.beginCommand).maxIn = s.maxIn := rfl
@[simp] theorem State.beginCommand_pending : (s.beginCommand).pending = s.pending := rfl
@[simp] theorem State.beginCommand_answer : (s.beginCommand).answer = s.answer := rfl
@[simp] theorem State.beginCommand_draws : (s.beginCommand).draws = s.draws + 1 := rfl
@[simp] theorem State.beginCommand_resets : (s.beginCommand).resets = s.resets := rfl

@[simp] theorem State.raise_fwd (e : ErrCode) : (s.raise e).fwd = s.fwd := rfl
@[simp] theorem State.raise_rev (e : ErrCode) : (s.raise e).rev = s.rev := rfl
@[simp] theorem State.raise_valid (e : ErrCode) : (s.raise e).valid = s.valid := rfl
@[simp] theorem State.raise_err (e : ErrCode) : (s.raise e).err = e := rfl
@[simp] theorem State.raise_errchar (e : ErrCode) : (s.raise e).errchar = s.errchar := rfl
@[simp] theorem State.raise_olen (e : ErrCode) : (s.raise e).olen = 0 := rfl
@[simp] theorem State.raise_out (e : ErrCode) : (s.raise e).out = s.out := rfl
@[simp] theorem State.raise_inp (e : ErrCode) : (s.raise e).inp = s.inp := rfl
@[simp] theorem State.raise_len (e : ErrCode) : (s.raise e).len = s.len := rfl
@[simp] theorem State.raise_eCarry (e : ErrCode) : (s.raise e).eCarry = s.eCarry := rfl
@[simp] theorem State.raise_eBits (e : ErrCode) : (s.raise e).eBits = s.eBits := rfl
@[simp] theorem State.raise_dChunk (e : ErrCode) : (s.raise e).dChunk = s.dChunk := rfl
@[simp] theorem State.raise_dBits (e : ErrCode) : (s.raise e).dBits = s.dBits := rfl
@[simp] theorem State.raise_ipos (e : ErrCode) : (s.raise e).ipos = s.ipos := rfl
@[simp] theorem State.raise_maxIn (e : ErrCode) : (s.raise e).maxIn = s.maxIn := rfl
@[simp] theorem State.raise_pending (e : ErrCode) : (s.raise e).pending = s.pending := rfl
@[simp] theorem State.raise_answer (e : ErrCode) : (s.raise e).answer = s.answer := rfl
@[simp] theorem State.raise_draws (e : ErrCode) : (s.raise e).draws = s.draws := rfl
@[simp] theorem State.raise_resets (e : ErrCode) : (s.raise e).resets = s.resets := rfl

@[simp] theorem State.raiseInvalidAlphabet_fwd : (s.raiseInvalidAlphabet).fwd = Config.freeFwd s.draws := rfl
@[simp] theorem State.raiseInvalidAlphabet_rev : (s.raiseInvalidAlphabet).rev = Config.freeRev s.draws := rfl
@[simp] theorem State.raiseInvalidAlphabet_valid : (s.raiseInvalidAlphabet).valid = false := rfl
@[simp] theorem State.raiseInvalidAlphabet_err : (s.raiseInvalidAlphabet).err = .invalidAlphabet := rfl
@[simp] theorem State.raiseInvalidAlphabet_errchar : (s.raiseInvalidAlphabet).errchar = s.errchar := rfl
@[simp] theorem State.raiseInvalidAlphabet_olen : (s.raiseInvalidAlphabet).olen = 0 := rfl
@[simp] theorem State.raiseInvalidAlphabet_out : (s.raiseInvalidAlphabet).out = s.out := rfl
@[simp] theorem State.raiseInvalidAlphabet_inp : (s.raiseInvalidAlphabet).inp = s.inp := rfl
@[simp] theorem State.raiseInvalidAlphabet_len : (s.raiseInvalidAlphabet).len = s.len := rfl
@[simp] theorem State.raiseInvalidAlphabet_eCarry : (s.raiseInvalidAlphabet).eCarry = s.eCarry := rfl
@[simp] theorem State.raiseInvalidAlphabet_eBits : (s.raiseInvalidAlphabet).eBits = s.eBits := rfl
@[simp] theorem State.raiseInvalidAlphabet_dChunk : (s.raiseInvalidAlphabet).dChunk = s.dChunk := rfl
@[simp] theorem State.raiseInvalidAlphabet_dBits : (s.raiseInvalidAlphabet).dBits = s.dBits := rfl
@[simp] theorem State.raiseInvalidAlphabet_ipos : (s.raiseInvalidAlphabet).ipos = s.ipos := rfl
@[simp] theorem State.raiseInvalidAlphabet_maxIn : (s.raiseInvalidAlphabet).maxIn = s.maxIn := rfl
@[simp] theorem State.raiseInvalidAlphabet_pending : (s.raiseInvalidAlphabet).pending = s.pending := rfl
@[simp] theorem State.raiseInvalidAlphabet_answer : (s.raiseInvalidAlphabet).answer = s.answer := rfl
@[simp] theorem State.raiseInvalidAlphabet_draws : (s.raiseInvalidAlphabet).draws = s.draws := rfl
@[simp] theorem State.raiseInvalidAlphabet_resets : (s.raiseInvalidAlphabet).resets = s.resets := rfl

@[simp] theorem State.illegalCommand_fwd : (s.illegalCommand).fwd = s.fwd := rfl
@[simp] theorem State.illegalCommand_rev : (s.illegalCommand).rev = s.rev := rfl
@[simp] theorem State.illegalCommand_valid : (s.illegalCommand).valid = s.valid := rfl
@[simp] theorem State.illegalCommand_err : (s.illegalCommand).err = .illegalCommand := rfl
@[simp] theorem State.illegalCommand_errchar : (s.illegalCommand).errchar = s.errchar := rfl
@[simp] theorem State.illegalCommand_olen : (s.illegalCommand).olen = 0 := rfl
@[simp] theorem State.illegalCommand_out : (s.illegalCommand).out = s.out := rfl
@[simp] theorem State.illegalCommand_inp : (s.illegalCommand).inp = s.inp := rfl
@[simp] theorem State.illegalCommand_len : (s.illegalCommand).len = s.len := rfl
@[simp] theorem State.illegalCommand_eCarry : (s.illegalCommand).eCarry = s.eCarry := rfl
@[simp] theorem State.illegalCommand_eBits : (s.illegalCommand).eBits = s.eBits := rfl
@[simp] theorem State.illegalCommand_dChunk : (s.illegalCommand).dChunk = s.dChunk := rfl
@[simp] theorem State.illegalCommand_dBits : (s.illegalCommand).dBits = s.dBits := rfl
@[simp] theorem State.illegalCommand_ipos : (s.illegalCommand).ipos = s.ipos := rfl
@[simp] theorem State.illegalCommand_maxIn : (s.illegalCommand).maxIn = s.maxIn := rfl
@[simp] theorem State.illegalCommand_pending : (s.illegalCommand).pending = s.pending := rfl
@[simp] theorem State.illegalCommand_answer : (s.illegalCommand).answer = s.answer := rfl
@[simp] theorem State.illegalCommand_draws : (s.illegalCommand).draws = s.draws + 1 := rfl
@[simp] theorem State.illegalCommand_resets : (s.illegalCommand).resets = s.resets := rfl

@[simp] theorem State.clearTables_fwd : (s.clearTables).fwd = s.fwd := rfl
@[simp] theorem State.clearTables_rev : (s.clearTables).rev = Vector.replicate 256 none := rfl
@[simp] theorem State.clearTables_valid : (s.clearTables).valid = false := rfl
@[simp] theorem State.clearTables_err : (s.clearTables).err = s.err := rfl
@[simp] theorem State.clearTables_errchar : (s.clearTables).errchar = s.errchar := rfl
@[simp] theorem State.clearTables_olen : (s.clearTables).olen = s.olen := rfl
@[simp] theorem State.clearTables_out : (s.clearTables).out = s.out := rfl
@[simp] theorem State.clearTables_inp : (s.clearTables).inp = s.inp := rfl
@[simp] theorem State.clearTables_len : (s.clearTables).len = s.len := rfl
@[simp] theorem State.clearTables_eCarry : (s.clearTables).eCarry = s.eCarry := rfl
@[simp] theorem State.clearTables_eBits : (s.clearTables).eBits = s.eBits := rfl
@[simp] theorem State.clearTables_dChunk : (s.clearTables).dChunk = s.dChunk := rfl
@[simp] theorem State.clearTables_dBits : (s.clearTables).dBits = s.dBits := rfl
@[simp] theorem State.clearTables_ipos : (s.clearTables).ipos = s.ipos := rfl
@[simp] theorem State.clearTables_maxIn : (s.clearTables).maxIn = s.maxIn := rfl
@[simp] theorem State.clearTables_pending : (s.clearTables).pending = s.pending := rfl
@[simp] theorem State.clearTables_answer : (s.clearTables).answer = s.answer := rfl
@[simp] theorem State.clearTables_draws : (s.clearTables).draws = s.draws := rfl
@[simp] theorem State.clearTables_resets : (s.clearTables).resets = s.resets := rfl

@[simp] theorem State.setEntry_fwd (i : Index) (c : Byte) : (s.setEntry i c).fwd = s.fwd.set i.toNat c i.isLt := rfl
@[simp] theorem State.setEntry_rev (i : Index) (c : Byte) :
    (s.setEntry i c).rev = s.rev.set c.toNat (some i) c.isLt := rfl
@[simp] theorem State.setEntry_valid (i : Index) (c : Byte) : (s.setEntry i c).valid = s.valid := rfl
@[simp] theorem State.setEntry_err (i : Index) (c : Byte) : (s.setEntry i c).err = s.err := rfl
@[simp] theorem State.setEntry_errchar (i : Index) (c : Byte) : (s.setEntry i c).errchar = s.errchar := rfl
@[simp] theorem State.setEntry_olen (i : Index) (c : Byte) : (s.setEntry i c).olen = s.olen := rfl
@[simp] theorem State.setEntry_out (i : Index) (c : Byte) : (s.setEntry i c).out = s.out := rfl
@[simp] theorem State.setEntry_inp (i : Index) (c : Byte) : (s.setEntry i c).inp = s.inp := rfl
@[simp] theorem State.setEntry_len (i : Index) (c : Byte) : (s.setEntry i c).len = s.len := rfl
@[simp] theorem State.setEntry_eCarry (i : Index) (c : Byte) : (s.setEntry i c).eCarry = s.eCarry := rfl
@[simp] theorem State.setEntry_eBits (i : Index) (c : Byte) : (s.setEntry i c).eBits = s.eBits := rfl
@[simp] theorem State.setEntry_dChunk (i : Index) (c : Byte) : (s.setEntry i c).dChunk = s.dChunk := rfl
@[simp] theorem State.setEntry_dBits (i : Index) (c : Byte) : (s.setEntry i c).dBits = s.dBits := rfl
@[simp] theorem State.setEntry_ipos (i : Index) (c : Byte) : (s.setEntry i c).ipos = s.ipos := rfl
@[simp] theorem State.setEntry_maxIn (i : Index) (c : Byte) : (s.setEntry i c).maxIn = s.maxIn := rfl
@[simp] theorem State.setEntry_pending (i : Index) (c : Byte) : (s.setEntry i c).pending = s.pending := rfl
@[simp] theorem State.setEntry_answer (i : Index) (c : Byte) : (s.setEntry i c).answer = s.answer := rfl
@[simp] theorem State.setEntry_draws (i : Index) (c : Byte) : (s.setEntry i c).draws = s.draws := rfl
@[simp] theorem State.setEntry_resets (i : Index) (c : Byte) : (s.setEntry i c).resets = s.resets := rfl

@[simp] theorem State.setValid_fwd : (s.setValid).fwd = s.fwd := rfl
@[simp] theorem State.setValid_rev : (s.setValid).rev = s.rev := rfl
@[simp] theorem State.setValid_valid : (s.setValid).valid = true := rfl
@[simp] theorem State.setValid_err : (s.setValid).err = s.err := rfl
@[simp] theorem State.setValid_errchar : (s.setValid).errchar = s.errchar := rfl
@[simp] theorem State.setValid_olen : (s.setValid).olen = s.olen := rfl
@[simp] theorem State.setValid_out : (s.setValid).out = s.out := rfl
@[simp] theorem State.setValid_inp : (s.setValid).inp = s.inp := rfl
@[simp] theorem State.setValid_len : (s.setValid).len = s.len := rfl
@[simp] theorem State.setValid_eCarry : (s.setValid).eCarry = s.eCarry := rfl
@[simp] theorem State.setValid_eBits : (s.setValid).eBits = s.eBits := rfl
@[simp] theorem State.setValid_dChunk : (s.setValid).dChunk = s.dChunk := rfl
@[simp] theorem State.setValid_dBits : (s.setValid).dBits = s.dBits := rfl
@[simp] theorem State.setValid_ipos : (s.setValid).ipos = s.ipos := rfl
@[simp] theorem State.setValid_maxIn : (s.setValid).maxIn = s.maxIn := rfl
@[simp] theorem State.setValid_pending : (s.setValid).pending = s.pending := rfl
@[simp] theorem State.setValid_answer : (s.setValid).answer = s.answer := rfl
@[simp] theorem State.setValid_draws : (s.setValid).draws = s.draws := rfl
@[simp] theorem State.setValid_resets : (s.setValid).resets = s.resets := rfl

@[simp] theorem State.startEnc_fwd : (s.startEnc).fwd = s.fwd := rfl
@[simp] theorem State.startEnc_rev : (s.startEnc).rev = s.rev := rfl
@[simp] theorem State.startEnc_valid : (s.startEnc).valid = s.valid := rfl
@[simp] theorem State.startEnc_err : (s.startEnc).err = s.err := rfl
@[simp] theorem State.startEnc_errchar : (s.startEnc).errchar = s.errchar := rfl
@[simp] theorem State.startEnc_olen : (s.startEnc).olen = s.olen := rfl
@[simp] theorem State.startEnc_out : (s.startEnc).out = s.out := rfl
@[simp] theorem State.startEnc_inp : (s.startEnc).inp = s.inp := rfl
@[simp] theorem State.startEnc_len : (s.startEnc).len = s.len := rfl
@[simp] theorem State.startEnc_eCarry : (s.startEnc).eCarry = 0 := rfl
@[simp] theorem State.startEnc_eBits : (s.startEnc).eBits = 0 := rfl
@[simp] theorem State.startEnc_dChunk : (s.startEnc).dChunk = s.dChunk := rfl
@[simp] theorem State.startEnc_dBits : (s.startEnc).dBits = s.dBits := rfl
@[simp] theorem State.startEnc_ipos : (s.startEnc).ipos = 0 := rfl
@[simp] theorem State.startEnc_maxIn : (s.startEnc).maxIn = s.maxIn := rfl
@[simp] theorem State.startEnc_pending : (s.startEnc).pending = s.pending := rfl
@[simp] theorem State.startEnc_answer : (s.startEnc).answer = s.answer := rfl
@[simp] theorem State.startEnc_draws : (s.startEnc).draws = s.draws := rfl
@[simp] theorem State.startEnc_resets : (s.startEnc).resets = s.resets := rfl

@[simp] theorem State.encGrow_fwd : (s.encGrow).fwd = s.fwd := rfl
@[simp] theorem State.encGrow_rev : (s.encGrow).rev = s.rev := rfl
@[simp] theorem State.encGrow_valid : (s.encGrow).valid = s.valid := rfl
@[simp] theorem State.encGrow_err : (s.encGrow).err = s.err := rfl
@[simp] theorem State.encGrow_errchar : (s.encGrow).errchar = s.errchar := rfl
@[simp] theorem State.encGrow_olen : (s.encGrow).olen = s.olen := rfl
@[simp] theorem State.encGrow_out : (s.encGrow).out = s.out := rfl
@[simp] theorem State.encGrow_inp : (s.encGrow).inp = s.inp := rfl
@[simp] theorem State.encGrow_len : (s.encGrow).len = s.len := rfl
@[simp] theorem State.encGrow_eCarry : (s.encGrow).eCarry = s.eCarry := rfl
@[simp] theorem State.encGrow_eBits : (s.encGrow).eBits = BitVec.ofNat 3 (s.eBits.toNat + 3) := rfl
@[simp] theorem State.encGrow_dChunk : (s.encGrow).dChunk = s.dChunk := rfl
@[simp] theorem State.encGrow_dBits : (s.encGrow).dBits = s.dBits := rfl
@[simp] theorem State.encGrow_ipos : (s.encGrow).ipos = s.ipos := rfl
@[simp] theorem State.encGrow_maxIn : (s.encGrow).maxIn = s.maxIn := rfl
@[simp] theorem State.encGrow_pending : (s.encGrow).pending = s.pending := rfl
@[simp] theorem State.encGrow_answer : (s.encGrow).answer = s.answer := rfl
@[simp] theorem State.encGrow_draws : (s.encGrow).draws = s.draws := rfl
@[simp] theorem State.encGrow_resets : (s.encGrow).resets = s.resets := rfl

@[simp] theorem State.encKeep_fwd (b : Byte) : (s.encKeep b).fwd = s.fwd := rfl
@[simp] theorem State.encKeep_rev (b : Byte) : (s.encKeep b).rev = s.rev := rfl
@[simp] theorem State.encKeep_valid (b : Byte) : (s.encKeep b).valid = s.valid := rfl
@[simp] theorem State.encKeep_err (b : Byte) : (s.encKeep b).err = s.err := rfl
@[simp] theorem State.encKeep_errchar (b : Byte) : (s.encKeep b).errchar = s.errchar := rfl
@[simp] theorem State.encKeep_olen (b : Byte) : (s.encKeep b).olen = s.olen := rfl
@[simp] theorem State.encKeep_out (b : Byte) : (s.encKeep b).out = s.out := rfl
@[simp] theorem State.encKeep_inp (b : Byte) : (s.encKeep b).inp = s.inp := rfl
@[simp] theorem State.encKeep_len (b : Byte) : (s.encKeep b).len = s.len := rfl
@[simp] theorem State.encKeep_eCarry (b : Byte) :
    (s.encKeep b).eCarry = BitVec.ofNat 7 (b.toNat &&& lowMask s.eBits.toNat) := rfl
@[simp] theorem State.encKeep_eBits (b : Byte) : (s.encKeep b).eBits = s.eBits := rfl
@[simp] theorem State.encKeep_dChunk (b : Byte) : (s.encKeep b).dChunk = s.dChunk := rfl
@[simp] theorem State.encKeep_dBits (b : Byte) : (s.encKeep b).dBits = s.dBits := rfl
@[simp] theorem State.encKeep_ipos (b : Byte) : (s.encKeep b).ipos = s.ipos := rfl
@[simp] theorem State.encKeep_maxIn (b : Byte) : (s.encKeep b).maxIn = s.maxIn := rfl
@[simp] theorem State.encKeep_pending (b : Byte) : (s.encKeep b).pending = s.pending := rfl
@[simp] theorem State.encKeep_answer (b : Byte) : (s.encKeep b).answer = s.answer := rfl
@[simp] theorem State.encKeep_draws (b : Byte) : (s.encKeep b).draws = s.draws := rfl
@[simp] theorem State.encKeep_resets (b : Byte) : (s.encKeep b).resets = s.resets := rfl

@[simp] theorem State.startDec_fwd : (s.startDec).fwd = s.fwd := rfl
@[simp] theorem State.startDec_rev : (s.startDec).rev = s.rev := rfl
@[simp] theorem State.startDec_valid : (s.startDec).valid = s.valid := rfl
@[simp] theorem State.startDec_err : (s.startDec).err = s.err := rfl
@[simp] theorem State.startDec_errchar : (s.startDec).errchar = s.errchar := rfl
@[simp] theorem State.startDec_olen : (s.startDec).olen = s.olen := rfl
@[simp] theorem State.startDec_out : (s.startDec).out = s.out := rfl
@[simp] theorem State.startDec_inp : (s.startDec).inp = s.inp := rfl
@[simp] theorem State.startDec_len : (s.startDec).len = s.len := rfl
@[simp] theorem State.startDec_eCarry : (s.startDec).eCarry = s.eCarry := rfl
@[simp] theorem State.startDec_eBits : (s.startDec).eBits = s.eBits := rfl
@[simp] theorem State.startDec_dChunk : (s.startDec).dChunk = 0 := rfl
@[simp] theorem State.startDec_dBits : (s.startDec).dBits = 0 := rfl
@[simp] theorem State.startDec_ipos : (s.startDec).ipos = 0 := rfl
@[simp] theorem State.startDec_maxIn : (s.startDec).maxIn = s.maxIn := rfl
@[simp] theorem State.startDec_pending : (s.startDec).pending = s.pending := rfl
@[simp] theorem State.startDec_answer : (s.startDec).answer = s.answer := rfl
@[simp] theorem State.startDec_draws : (s.startDec).draws = s.draws := rfl
@[simp] theorem State.startDec_resets : (s.startDec).resets = s.resets := rfl

@[simp] theorem State.decGrow_fwd (v : Index) : (s.decGrow v).fwd = s.fwd := rfl
@[simp] theorem State.decGrow_rev (v : Index) : (s.decGrow v).rev = s.rev := rfl
@[simp] theorem State.decGrow_valid (v : Index) : (s.decGrow v).valid = s.valid := rfl
@[simp] theorem State.decGrow_err (v : Index) : (s.decGrow v).err = s.err := rfl
@[simp] theorem State.decGrow_errchar (v : Index) : (s.decGrow v).errchar = s.errchar := rfl
@[simp] theorem State.decGrow_olen (v : Index) : (s.decGrow v).olen = s.olen := rfl
@[simp] theorem State.decGrow_out (v : Index) : (s.decGrow v).out = s.out := rfl
@[simp] theorem State.decGrow_inp (v : Index) : (s.decGrow v).inp = s.inp := rfl
@[simp] theorem State.decGrow_len (v : Index) : (s.decGrow v).len = s.len := rfl
@[simp] theorem State.decGrow_eCarry (v : Index) : (s.decGrow v).eCarry = s.eCarry := rfl
@[simp] theorem State.decGrow_eBits (v : Index) : (s.decGrow v).eBits = s.eBits := rfl
@[simp] theorem State.decGrow_dChunk (v : Index) :
    (s.decGrow v).dChunk = BitVec.ofNat 12 ((s.dChunk.toNat <<< 5) ||| v.toNat) := rfl
@[simp] theorem State.decGrow_dBits (v : Index) : (s.decGrow v).dBits = BitVec.ofNat 4 (s.dBits.toNat + 5) := rfl
@[simp] theorem State.decGrow_ipos (v : Index) : (s.decGrow v).ipos = s.ipos := rfl
@[simp] theorem State.decGrow_maxIn (v : Index) : (s.decGrow v).maxIn = s.maxIn := rfl
@[simp] theorem State.decGrow_pending (v : Index) : (s.decGrow v).pending = s.pending := rfl
@[simp] theorem State.decGrow_answer (v : Index) : (s.decGrow v).answer = s.answer := rfl
@[simp] theorem State.decGrow_draws (v : Index) : (s.decGrow v).draws = s.draws := rfl
@[simp] theorem State.decGrow_resets (v : Index) : (s.decGrow v).resets = s.resets := rfl

@[simp] theorem State.decMerge_fwd : (s.decMerge).fwd = s.fwd := rfl
@[simp] theorem State.decMerge_rev : (s.decMerge).rev = s.rev := rfl
@[simp] theorem State.decMerge_valid : (s.decMerge).valid = s.valid := rfl
@[simp] theorem State.decMerge_err : (s.decMerge).err = s.err := rfl
@[simp] theorem State.decMerge_errchar : (s.decMerge).errchar = s.errchar := rfl
@[simp] theorem State.decMerge_olen : (s.decMerge).olen = s.olen := rfl
@[simp] theorem State.decMerge_out :
    (s.decMerge).out = s.out.set (s.olen - 1)
      (s.outAt (s.olen - 1) ||| BitVec.ofNat 8 (s.dChunk.toNat &&& lowMask s.dBits.toNat)) := rfl
@[simp] theorem State.decMerge_inp : (s.decMerge).inp = s.inp := rfl
@[simp] theorem State.decMerge_len : (s.decMerge).len = s.len := rfl
@[simp] theorem State.decMerge_eCarry : (s.decMerge).eCarry = s.eCarry := rfl
@[simp] theorem State.decMerge_eBits : (s.decMerge).eBits = s.eBits := rfl
@[simp] theorem State.decMerge_dChunk : (s.decMerge).dChunk = s.dChunk := rfl
@[simp] theorem State.decMerge_dBits : (s.decMerge).dBits = s.dBits := rfl
@[simp] theorem State.decMerge_ipos : (s.decMerge).ipos = s.ipos := rfl
@[simp] theorem State.decMerge_maxIn : (s.decMerge).maxIn = s.maxIn := rfl
@[simp] theorem State.decMerge_pending : (s.decMerge).pending = s.pending := rfl
@[simp] theorem State.decMerge_answer : (s.decMerge).answer = s.answer := rfl
@[simp] theorem State.decMerge_draws : (s.decMerge).draws = s.draws := rfl
@[simp] theorem State.decMerge_resets : (s.decMerge).resets = s.resets := rfl

@[simp] theorem State.answerWith_fwd (a : Answer) : (s.answerWith a).fwd = s.fwd := rfl
@[simp] theorem State.answerWith_rev (a : Answer) : (s.answerWith a).rev = s.rev := rfl
@[simp] theorem State.answerWith_valid (a : Answer) : (s.answerWith a).valid = s.valid := rfl
@[simp] theorem State.answerWith_err (a : Answer) : (s.answerWith a).err = s.err := rfl
@[simp] theorem State.answerWith_errchar (a : Answer) : (s.answerWith a).errchar = s.errchar := rfl
@[simp] theorem State.answerWith_olen (a : Answer) : (s.answerWith a).olen = s.olen := rfl
@[simp] theorem State.answerWith_out (a : Answer) : (s.answerWith a).out = s.out := rfl
@[simp] theorem State.answerWith_inp (a : Answer) : (s.answerWith a).inp = s.inp := rfl
@[simp] theorem State.answerWith_len (a : Answer) : (s.answerWith a).len = s.len := rfl
@[simp] theorem State.answerWith_eCarry (a : Answer) : (s.answerWith a).eCarry = s.eCarry := rfl
@[simp] theorem State.answerWith_eBits (a : Answer) : (s.answerWith a).eBits = s.eBits := rfl
@[simp] theorem State.answerWith_dChunk (a : Answer) : (s.answerWith a).dChunk = s.dChunk := rfl
@[simp] theorem State.answerWith_dBits (a : Answer) : (s.answerWith a).dBits = s.dBits := rfl
@[simp] theorem State.answerWith_ipos (a : Answer) : (s.answerWith a).ipos = s.ipos := rfl
@[simp] theorem State.answerWith_maxIn (a : Answer) : (s.answerWith a).maxIn = s.maxIn := rfl
@[simp] theorem State.answerWith_pending (a : Answer) : (s.answerWith a).pending = s.pending := rfl
@[simp] theorem State.answerWith_answer (a : Answer) : (s.answerWith a).answer = some a := rfl
@[simp] theorem State.answerWith_draws (a : Answer) : (s.answerWith a).draws = s.draws := rfl
@[simp] theorem State.answerWith_resets (a : Answer) : (s.answerWith a).resets = s.resets := rfl

/-! The reads of a buffer unit and of the tables see only the fields they read. -/

@[simp] theorem State.emit_inAt (v : Byte) (p : Nat) : (s.emit v).inAt p = s.inAt p := rfl
@[simp] theorem State.emit_fwdAt (v : Byte) (k : Index) : (s.emit v).fwdAt k = s.fwdAt k := rfl
@[simp] theorem State.emit_revAt (v : Byte) (c : Byte) : (s.emit v).revAt c = s.revAt c := rfl
@[simp] theorem State.nextUnit_inAt (p : Nat) : (s.nextUnit).inAt p = s.inAt p := rfl
@[simp] theorem State.nextUnit_fwdAt (k : Index) : (s.nextUnit).fwdAt k = s.fwdAt k := rfl
@[simp] theorem State.nextUnit_revAt (c : Byte) : (s.nextUnit).revAt c = s.revAt c := rfl
@[simp] theorem State.redraw_inAt (p : Nat) : (s.redraw).inAt p = s.inAt p := rfl
@[simp] theorem State.redraw_fwdAt (k : Index) : (s.redraw).fwdAt k = s.fwdAt k := rfl
@[simp] theorem State.redraw_revAt (c : Byte) : (s.redraw).revAt c = s.revAt c := rfl
@[simp] theorem State.beginCommand_inAt (p : Nat) : (s.beginCommand).inAt p = s.inAt p := rfl
@[simp] theorem State.beginCommand_fwdAt (k : Index) : (s.beginCommand).fwdAt k = s.fwdAt k := rfl
@[simp] theorem State.beginCommand_revAt (c : Byte) : (s.beginCommand).revAt c = s.revAt c := rfl
@[simp] theorem State.raise_inAt (e : ErrCode) (p : Nat) : (s.raise e).inAt p = s.inAt p := rfl
@[simp] theorem State.raise_fwdAt (e : ErrCode) (k : Index) : (s.raise e).fwdAt k = s.fwdAt k := rfl
@[simp] theorem State.raise_revAt (e : ErrCode) (c : Byte) : (s.raise e).revAt c = s.revAt c := rfl
@[simp] theorem State.raiseInvalidAlphabet_inAt (p : Nat) : (s.raiseInvalidAlphabet).inAt p = s.inAt p := rfl
@[simp] theorem State.illegalCommand_inAt (p : Nat) : (s.illegalCommand).inAt p = s.inAt p := rfl
@[simp] theorem State.illegalCommand_fwdAt (k : Index) : (s.illegalCommand).fwdAt k = s.fwdAt k := rfl
@[simp] theorem State.illegalCommand_revAt (c : Byte) : (s.illegalCommand).revAt c = s.revAt c := rfl
@[simp] theorem State.clearTables_inAt (p : Nat) : (s.clearTables).inAt p = s.inAt p := rfl
@[simp] theorem State.clearTables_fwdAt (k : Index) : (s.clearTables).fwdAt k = s.fwdAt k := rfl
@[simp] theorem State.setEntry_inAt (i : Index) (c : Byte) (p : Nat) : (s.setEntry i c).inAt p = s.inAt p := rfl
@[simp] theorem State.setValid_inAt (p : Nat) : (s.setValid).inAt p = s.inAt p := rfl
@[simp] theorem State.setValid_fwdAt (k : Index) : (s.setValid).fwdAt k = s.fwdAt k := rfl
@[simp] theorem State.setValid_revAt (c : Byte) : (s.setValid).revAt c = s.revAt c := rfl
@[simp] theorem State.startEnc_inAt (p : Nat) : (s.startEnc).inAt p = s.inAt p := rfl
@[simp] theorem State.startEnc_fwdAt (k : Index) : (s.startEnc).fwdAt k = s.fwdAt k := rfl
@[simp] theorem State.startEnc_revAt (c : Byte) : (s.startEnc).revAt c = s.revAt c := rfl
@[simp] theorem State.encGrow_inAt (p : Nat) : (s.encGrow).inAt p = s.inAt p := rfl
@[simp] theorem State.encGrow_fwdAt (k : Index) : (s.encGrow).fwdAt k = s.fwdAt k := rfl
@[simp] theorem State.encGrow_revAt (c : Byte) : (s.encGrow).revAt c = s.revAt c := rfl
@[simp] theorem State.encKeep_inAt (b : Byte) (p : Nat) : (s.encKeep b).inAt p = s.inAt p := rfl
@[simp] theorem State.encKeep_fwdAt (b : Byte) (k : Index) : (s.encKeep b).fwdAt k = s.fwdAt k := rfl
@[simp] theorem State.encKeep_revAt (b : Byte) (c : Byte) : (s.encKeep b).revAt c = s.revAt c := rfl
@[simp] theorem State.startDec_inAt (p : Nat) : (s.startDec).inAt p = s.inAt p := rfl
@[simp] theorem State.startDec_fwdAt (k : Index) : (s.startDec).fwdAt k = s.fwdAt k := rfl
@[simp] theorem State.startDec_revAt (c : Byte) : (s.startDec).revAt c = s.revAt c := rfl
@[simp] theorem State.decGrow_inAt (v : Index) (p : Nat) : (s.decGrow v).inAt p = s.inAt p := rfl
@[simp] theorem State.decGrow_fwdAt (v : Index) (k : Index) : (s.decGrow v).fwdAt k = s.fwdAt k := rfl
@[simp] theorem State.decGrow_revAt (v : Index) (c : Byte) : (s.decGrow v).revAt c = s.revAt c := rfl
@[simp] theorem State.decMerge_inAt (p : Nat) : (s.decMerge).inAt p = s.inAt p := rfl
@[simp] theorem State.decMerge_fwdAt (k : Index) : (s.decMerge).fwdAt k = s.fwdAt k := rfl
@[simp] theorem State.decMerge_revAt (c : Byte) : (s.decMerge).revAt c = s.revAt c := rfl
@[simp] theorem State.answerWith_inAt (a : Answer) (p : Nat) : (s.answerWith a).inAt p = s.inAt p := rfl
@[simp] theorem State.answerWith_fwdAt (a : Answer) (k : Index) : (s.answerWith a).fwdAt k = s.fwdAt k := rfl
@[simp] theorem State.answerWith_revAt (a : Answer) (c : Byte) : (s.answerWith a).revAt c = s.revAt c := rfl

end Sys2Proof.Machine
end

