-- ==== Sys2Proof/Laws/Construct.lean ====
section
/-! SUPPORT. The tables: what writing an entry does to each lookup, and everything the pass of `BuildTables` can do. -/

namespace Sys2Proof.Machine

/-- FWD after `setEntry`: the entry written, every other as before. -/
theorem State.fwdAt_setEntry (s : State) (i k : Index) (c : Byte) :
    (s.setEntry i c).fwdAt k = if k = i then c else s.fwdAt k := by
  simp only [State.fwdAt, State.setEntry, Vector.getElem_set, BitVec.toNat_inj, eq_comm]

/-- REV after `setEntry`: a hit for the character written, every other entry as before. -/
theorem State.revAt_setEntry (s : State) (i : Index) (c d : Byte) :
    (s.setEntry i c).revAt d = if d = c then some i else s.revAt d := by
  simp only [State.revAt, State.setEntry, Vector.getElem_set, BitVec.toNat_inj, eq_comm]

/-- REV after `clearTables`: every entry a miss. -/
@[simp] theorem State.revAt_clearTables (s : State) (c : Byte) : s.clearTables.revAt c = none := by
  simp [State.revAt]

/-- What a tick of an element step may do: move IPOS, and nothing else. -/
def Tick (tick : State → State) : Prop := ∀ s : State, ∃ p, tick s = { s with ipos := p }

theorem tick_id : Tick id := fun s => ⟨s.ipos, rfl⟩

theorem tick_nextUnit : Tick State.nextUnit := fun s => ⟨s.ipos + 1, rfl⟩

/-- What the pass leaves alone: all but FWD, REV and IPOS. -/
def PassFrame (s t : State) : Prop := t = { s with fwd := t.fwd, rev := t.rev, ipos := t.ipos }

theorem PassFrame.refl (s : State) : PassFrame s s := rfl

theorem PassFrame.trans {s t u : State} (h : PassFrame s t) (k : PassFrame t u) : PassFrame s u := by
  unfold PassFrame at *; rw [k, h]

theorem passFrame_entry {tick : State → State} (ht : Tick tick) (s : State) (i : Index) (c : Byte) :
    PassFrame s (tick (s.setEntry i c)) := by
  obtain ⟨p, hp⟩ := ht (s.setEntry i c)
  rw [hp]; rfl

theorem fwdAt_tick {tick : State → State} (ht : Tick tick) (s : State) (k : Index) : (tick s).fwdAt k = s.fwdAt k := by
  obtain ⟨p, hp⟩ := ht s; rw [hp]; rfl

theorem revAt_tick {tick : State → State} (ht : Tick tick) (s : State) (c : Byte) : (tick s).revAt c = s.revAt c := by
  obtain ⟨p, hp⟩ := ht s; rw [hp]; rfl

/-- The tables after positions `i .. i+n-1` of the alphabet went in: those characters are new and distinct, each at its index in
FWD and found by REV, and every other entry is as before. -/
structure PassDone (char : Nat → Byte) (tick : State → State) (i n : Nat) (s t : State) : Prop where
  frame : PassFrame s t
  fresh : ∀ j, i ≤ j → j < i + n → s.revAt (char j) = none
  distinct : ∀ j k, i ≤ j → j < k → k < i + n → char j ≠ char k
  fwd : ∀ k : Index, t.fwdAt k = if i ≤ k.toNat ∧ k.toNat < i + n then char k.toNat else s.fwdAt k
  hit : ∀ j, i ≤ j → j < i + n → t.revAt (char j) = some (BitVec.ofNat 5 j)
  other : ∀ c, (∀ j, i ≤ j → j < i + n → char j ≠ c) → t.revAt c = s.revAt c
  counted : tick = State.nextUnit → t.ipos = s.ipos + n
  uncounted : tick = id → t.ipos = s.ipos

/-- Everything the pass can do: it goes on with all its characters in, or it raises at the first position `j` whose character
REV already has, the positions before it in. -/
theorem buildPass_cases (char : Nat → Byte) {tick : State → State} (ht : Tick tick) (n i : Nat) (s : State) (hi : i + n ≤ 32) :
    (∃ t, buildPass char tick n i s = .going t ∧ PassDone char tick i n s t) ∨
    (∃ j t, i ≤ j ∧ j < i + n ∧ PassDone char tick i (j - i) s t ∧ (t.revAt (char j)).isSome = true ∧
      buildPass char tick n i s = .raised t.raiseInvalidAlphabet) := by
  induction n generalizing i s with
  | zero =>
    refine .inl ⟨s, rfl, rfl, ?_, ?_, ?_, ?_, ?_, ?_, ?_⟩ <;> intros <;> first | omega | rfl | skip
    split
    · omega
    · rfl
  | succ n ih =>
    cases hc : s.revAt (char i) with
    | some k =>
      refine .inr ⟨i, s, Nat.le_refl _, by omega, ⟨rfl, ?_, ?_, ?_, ?_, ?_, ?_, ?_⟩, by rw [hc]; rfl, by simp [buildPass, hc]⟩ <;>
        intros <;> first | omega | rfl | skip
      split
      · omega
      · rfl
    | none =>
      have hrun : buildPass char tick (n + 1) i s =
          buildPass char tick n (i + 1) (tick (s.setEntry (BitVec.ofNat 5 i) (char i))) := by
        simp [buildPass, hc]
      have hi5 : (BitVec.ofNat 5 i).toNat = i := by simp; omega
      have key : ∀ m t, i + 1 + m ≤ 32 → PassDone char tick (i + 1) m (tick (s.setEntry (BitVec.ofNat 5 i) (char i))) t →
          PassDone char tick i (m + 1) s t := by
        intro m t hm h
        have hne : ∀ j, i + 1 ≤ j → j < i + 1 + m → char j ≠ char i := by
          intro j h1 h2 he
          have := h.fresh j h1 h2
          rw [revAt_tick ht, State.revAt_setEntry, if_pos he] at this
          cases this
        refine ⟨(passFrame_entry ht _ _ _).trans h.frame, ?_, ?_, ?_, ?_, ?_, ?_, ?_⟩
        · intro j h1 h2
          rcases Nat.lt_or_eq_of_le h1 with h3 | rfl
          · have := h.fresh j h3 (by omega)
            rwa [revAt_tick ht, State.revAt_setEntry, if_neg (hne j h3 (by omega))] at this
          · exact hc
        · intro j k h1 h2 h3
          rcases Nat.lt_or_eq_of_le h1 with h4 | rfl
          · exact h.distinct j k h4 h2 (by omega)
          · exact (hne k h2 (by omega)).symm
        · intro k
          rw [h.fwd k, fwdAt_tick ht, State.fwdAt_setEntry]
          have hk : k = BitVec.ofNat 5 i ↔ k.toNat = i := by
            rw [← BitVec.toNat_inj, hi5]
          by_cases h1 : k.toNat = i
          · rw [if_neg (by omega), if_pos (hk.2 h1), if_pos (by omega), h1]
          · rw [if_neg (mt hk.1 h1)]
            by_cases h2 : i + 1 ≤ k.toNat ∧ k.toNat < i + 1 + m
            · rw [if_pos h2, if_pos (by omega)]
            · rw [if_neg h2, if_neg (by omega)]
        · intro j h1 h2
          rcases Nat.lt_or_eq_of_le h1 with h3 | rfl
          · exact h.hit j h3 (by omega)
          · rw [h.other (char i) (fun j h1 h2 => hne j h1 h2), revAt_tick ht, State.revAt_setEntry, if_pos rfl]
        · intro c hcc
          rw [h.other c (fun j h1 h2 => hcc j (by omega) (by omega)), revAt_tick ht, State.revAt_setEntry,
            if_neg (hcc i (Nat.le_refl _) (by omega)).symm]
        · intro h1
          rw [h.counted h1, h1, State.nextUnit_ipos, State.setEntry_ipos]
          omega
        · intro h1
          rw [h.uncounted h1, h1, id, State.setEntry_ipos]
      rcases ih (i + 1) (tick (s.setEntry (BitVec.ofNat 5 i) (char i))) (by omega) with ⟨t, h1, h2⟩ | ⟨j, t, h1, h2, h3, h4, h5⟩
      · exact .inl ⟨t, hrun.trans h1, key n t (by omega) h2⟩
      · refine .inr ⟨j, t, by omega, by omega, ?_, h4, hrun.trans h5⟩
        have hj : j - i = (j - (i + 1)) + 1 := by omega
        rw [hj]
        exact key _ t (by omega) h3

/-- When the pass starts from cleared tables, a character that REV already has stands at an earlier position. -/
theorem PassDone.repeated {char : Nat → Byte} {tick : State → State} {n : Nat} {s t : State} {c : Byte}
    (h : PassDone char tick 0 n s.clearTables t) (hc : (t.revAt c).isSome = true) : ∃ k, k < n ∧ char k = c := by
  by_contra hne
  rw [h.other c (fun j _ h2 he => hne ⟨j, by omega, he⟩), State.revAt_clearTables] at hc
  cases hc

/-- Everything `BuildTables` can do: VALID is set over the tables of 32 distinct characters, or InvalidAlphabet is raised at the
first position `j` whose character occurs at an earlier one. -/
theorem buildTables_cases (char : Nat → Byte) {tick : State → State} (ht : Tick tick) (s : State) :
    (∃ t, buildTables char tick s = .going t.setValid ∧ PassDone char tick 0 32 s.clearTables t) ∨
    (∃ j t, j < 32 ∧ (∃ k, k < j ∧ char k = char j) ∧ PassDone char tick 0 j s.clearTables t ∧
      buildTables char tick s = .raised t.raiseInvalidAlphabet) := by
  rcases buildPass_cases char ht 32 0 s.clearTables (by omega) with ⟨t, h1, h2⟩ | ⟨j, t, h1, h2, h3, h4, h5⟩
  · exact .inl ⟨t, by simp [buildTables, h1, Flow.andThen], h2⟩
  · exact .inr ⟨j, t, by omega, PassDone.repeated h3 h4, h3, by simp [buildTables, h5, Flow.andThen]⟩

/-- When REV and FWD are each other's inverse, exactly 32 entries of REV hit: the entries of the 32 characters of FWD. -/
theorem card_hits {s : State} (hf : ∀ k : Index, s.revAt (s.fwdAt k) = some k)
    (hr : ∀ (c : Byte) (k : Index), s.revAt c = some k → s.fwdAt k = c) :
    (Finset.univ.filter fun c : Fin 256 => (s.rev[c.val]).isSome).card = 32 := by
  let entry : Fin 32 → Fin 256 := fun k => ⟨(s.fwdAt (BitVec.ofNat 5 k.val)).toNat, (s.fwdAt _).isLt⟩
  have hinj : Function.Injective entry := by
    intro j k h
    have h1 : s.fwdAt (BitVec.ofNat 5 j.val) = s.fwdAt (BitVec.ofNat 5 k.val) :=
      BitVec.eq_of_toNat_eq (congrArg Fin.val h)
    have h2 := hf (BitVec.ofNat 5 j.val)
    rw [h1, hf, Option.some.injEq] at h2
    have h3 := congrArg BitVec.toNat h2
    simp only [BitVec.toNat_ofNat] at h3
    omega
  have himage : (Finset.univ.filter fun c : Fin 256 => (s.rev[c.val]).isSome) = Finset.univ.image entry := by
    ext c
    simp only [Finset.mem_filter, Finset.mem_univ, true_and, Finset.mem_image]
    constructor
    · intro h
      have hc : (BitVec.ofNat 8 c.val).toNat = c.val := by rw [BitVec.toNat_ofNat]; omega
      have hs : s.revAt (BitVec.ofNat 8 c.val) = s.rev[c.val] := by simp only [State.revAt, hc]
      obtain ⟨k, hk⟩ := Option.isSome_iff_exists.1 h
      refine ⟨⟨k.toNat, k.isLt⟩, Fin.ext ?_⟩
      show (s.fwdAt (BitVec.ofNat 5 k.toNat)).toNat = c.val
      rw [BitVec.ofNat_toNat, BitVec.setWidth_eq, hr _ k (hs.trans hk), hc]
    · rintro ⟨k, rfl⟩
      show (s.revAt (s.fwdAt (BitVec.ofNat 5 k.val))).isSome = true
      rw [hf]
      rfl
  rw [himage, Finset.card_image_of_injective _ hinj, Finset.card_univ, Fintype.card_fin]

end Sys2Proof.Machine
end

