-- ==== Sys2Proof/Laws/Codec.lean ====
section
/-! SUPPORT. The two folds: what each step of ENC and DEC may write, and what the loops and the whole commands leave alone. -/

namespace Sys2Proof.Machine

/-- The way a command's result grows: units are written one after another from `s.olen` to `t.olen`, and no other. -/
structure Appends (s t : State) : Prop where
  le : s.olen ≤ t.olen
  below : ∀ j, j < s.olen → t.out.get? j = s.out.get? j
  written : ∀ j, s.olen ≤ j → j < t.olen → (t.out.get? j).isSome = true
  above : ∀ j, t.olen ≤ j → t.out.get? j = s.out.get? j
  canonical : s.out.wf → t.out.wf

theorem Appends.of_eq {s t : State} (h : t.olen = s.olen) (k : t.out = s.out) : Appends s t :=
  ⟨by omega, fun _ _ => by rw [k], fun _ _ _ => by omega, fun _ _ => by rw [k], fun w => by rwa [k]⟩

theorem Appends.trans {s t u : State} (h : Appends s t) (k : Appends t u) : Appends s u where
  le := Nat.le_trans h.le k.le
  below j hj := (k.below j (Nat.lt_of_lt_of_le hj h.le)).trans (h.below j hj)
  written j h1 h2 := by
    by_cases h3 : j < t.olen
    · rw [k.below j h3]; exact h.written j h1 h3
    · exact k.written j (by omega) h2
  above j hj := (k.above j hj).trans (h.above j (Nat.le_trans k.le hj))
  canonical w := k.canonical (h.canonical w)

theorem appends_emit (s : State) (v : Byte) : Appends s (s.emit v) where
  le := by simp
  below j hj := by simp [Memory.get?_set_ne _ _ (Nat.ne_of_lt hj)]
  written j h1 h2 := by
    have : j = s.olen := by simp at h2; omega
    subst this; simp
  above j hj := by
    have : j ≠ s.olen := by simp at hj; omega
    simp [Memory.get?_set_ne _ _ this]
  canonical w := by simpa using Memory.set_wf w _ _

/-! ## ENC -/

/-- What the steps of ENC leave alone: all but OUT, OLEN and the working registers of ENC. -/
def EncKeeps (s t : State) : Prop :=
  t = { s with out := t.out, olen := t.olen, eCarry := t.eCarry, eBits := t.eBits, ipos := t.ipos }

theorem EncKeeps.trans {s t u : State} (h : EncKeeps s t) (k : EncKeeps t u) : EncKeeps s u := by
  unfold EncKeeps at *; rw [k, h]

/-- The byte step appends to the result and keeps the rest. -/
theorem encByte_keeps (s : State) (b : Byte) : EncKeeps s (s.encByte b) ∧ Appends s (s.encByte b) := by
  have first : Appends s ((s.encGrow.emit (s.encGrow.fwdAt (s.encGrow.encIndex b))).encKeep b) :=
    ((Appends.of_eq rfl rfl : Appends s s.encGrow).trans (appends_emit _ _)).trans (Appends.of_eq rfl rfl)
  unfold State.encByte State.encMore
  dsimp only
  split
  · refine ⟨rfl, first.trans ?_⟩
    exact ((Appends.of_eq rfl rfl).trans (appends_emit _ _)).trans (Appends.of_eq rfl rfl)
  · exact ⟨rfl, first⟩

/-- The byte steps advance IPOS by the number of units and keep what one step keeps. -/
theorem encLoop_keeps (n : Nat) (s : State) :
    EncKeeps s (encLoop n s) ∧ Appends s (encLoop n s) ∧ (encLoop n s).ipos = s.ipos + n := by
  induction n generalizing s with
  | zero => exact ⟨rfl, Appends.of_eq rfl rfl, rfl⟩
  | succ n ih =>
    obtain ⟨h1, h2⟩ := encByte_keeps s (s.inAt s.ipos)
    obtain ⟨h3, h4, h5⟩ := ih (s.encByte (s.inAt s.ipos)).nextUnit
    have h6 : EncKeeps (s.encByte (s.inAt s.ipos)) (s.encByte (s.inAt s.ipos)).nextUnit := rfl
    have h8 : Appends (s.encByte (s.inAt s.ipos)) (s.encByte (s.inAt s.ipos)).nextUnit := Appends.of_eq rfl rfl
    refine ⟨(h1.trans h6).trans h3, (h2.trans h8).trans h4, ?_⟩
    have h7 : (s.encByte (s.inAt s.ipos)).ipos = s.ipos := by
      unfold State.encByte State.encMore
      dsimp only
      split <;> rfl
    simp only [encLoop, h5, State.nextUnit_ipos, h7]
    omega

/-- The final step emits at most one symbol and changes no working register. -/
theorem encFinal_keeps (s : State) :
    EncKeeps s s.encFinal ∧ Appends s s.encFinal ∧
      s.encFinal.eCarry = s.eCarry ∧ s.encFinal.eBits = s.eBits ∧ s.encFinal.ipos = s.ipos := by
  unfold State.encFinal
  split
  · exact ⟨rfl, appends_emit _ _, rfl, rfl, rfl⟩
  · exact ⟨rfl, Appends.of_eq rfl rfl, rfl, rfl, rfl⟩

/-- Everything ENC can do: NoCodec, or the fold over the whole input and the final step. -/
theorem execEnc_cases (s : State) :
    (s.valid = false ∧ execEnc s = .next (s.beginCommand.raise .noCodec)) ∨
    (s.valid = true ∧ execEnc s = .next (encLoop s.len s.beginCommand.startEnc).encFinal) := by
  cases h : s.valid <;> simp [execEnc, State.requireCodec, h, Flow.andThen, Flow.finish]

/-! ## DEC -/

/-- What the steps of DEC leave alone while they go on: all but OUT, OLEN and the working registers of DEC. -/
def DecKeeps (s t : State) : Prop :=
  t = { s with out := t.out, olen := t.olen, dChunk := t.dChunk, dBits := t.dBits, ipos := t.ipos }

theorem DecKeeps.trans {s t u : State} (h : DecKeeps s t) (k : DecKeeps t u) : DecKeeps s u := by
  unfold DecKeeps at *; rw [k, h]

/-- The accumulating step appends at most one byte and keeps the rest. -/
theorem decAccumulate_keeps (s : State) (v : Index) :
    DecKeeps s (s.decAccumulate v) ∧ Appends s (s.decAccumulate v) ∧ (s.decAccumulate v).ipos = s.ipos := by
  unfold State.decAccumulate
  dsimp only
  split
  · refine ⟨rfl, ?_, rfl⟩
    exact ((Appends.of_eq rfl rfl : Appends s (s.decGrow v)).trans
      ((Appends.of_eq rfl rfl).trans (appends_emit _ _))).trans (Appends.of_eq rfl rfl)
  · exact ⟨rfl, Appends.of_eq rfl rfl, rfl⟩

/-- Everything the symbol steps can do: all `n` characters are in the alphabet and they go on, or the first that is not, at
position `m` from IPOS, raises InvalidCharacter with itself in ERRCHAR, the steps before it done. -/
theorem decLoop_cases (n : Nat) (s : State) :
    (∃ t, decLoop n s = .going t ∧ DecKeeps s t ∧ Appends s t ∧ t.ipos = s.ipos + n ∧
      ∀ m, m < n → (s.revAt (s.inAt (s.ipos + m))).isSome = true) ∨
    (∃ m t, m < n ∧ decLoop m s = .going t ∧ DecKeeps s t ∧ Appends s t ∧ t.ipos = s.ipos + m ∧
      s.revAt (s.inAt (s.ipos + m)) = none ∧ (∀ k, k < m → (s.revAt (s.inAt (s.ipos + k))).isSome = true) ∧
      decLoop n s = .raised ({ t with errchar := s.inAt (s.ipos + m) }.raise .invalidCharacter)) := by
  induction n generalizing s with
  | zero => exact .inl ⟨s, rfl, rfl, Appends.of_eq rfl rfl, rfl, fun m hm => by omega⟩
  | succ n ih =>
    cases hc : s.revAt (s.inAt s.ipos) with
    | none =>
      refine .inr ⟨0, s, by omega, rfl, rfl, Appends.of_eq rfl rfl, rfl, hc, fun k hk => by omega, ?_⟩
      simp [decLoop, State.decSym, hc, Flow.andThen]
    | some v =>
      obtain ⟨k1, k2, k3⟩ := decAccumulate_keeps s v
      have hstep : ∀ m, decLoop (m + 1) s = decLoop m (s.decAccumulate v).nextUnit := by
        intro m; simp [decLoop, State.decSym, hc, Flow.andThen]
      have k4 : DecKeeps s (s.decAccumulate v).nextUnit := k1.trans rfl
      have k5 : Appends s (s.decAccumulate v).nextUnit := k2.trans (Appends.of_eq rfl rfl)
      have hin : ∀ m, (s.decAccumulate v).nextUnit.inAt m = s.inAt m := by intro m; rw [k4]; rfl
      have hrev : ∀ c, (s.decAccumulate v).nextUnit.revAt c = s.revAt c := by intro c; rw [k4]; rfl
      have hpos : (s.decAccumulate v).nextUnit.ipos = s.ipos + 1 := by simp [k3]
      have hshift : ∀ m, s.ipos + 1 + m = s.ipos + (m + 1) := by intro m; omega
      have hpre : ∀ p, (∀ m, m < p → (s.revAt (s.inAt (s.ipos + (m + 1)))).isSome = true) →
          ∀ m, m < p + 1 → (s.revAt (s.inAt (s.ipos + m))).isSome = true := by
        intro p hp m hm
        cases m with
        | zero => simp [hc]
        | succ m => exact hp m (by omega)
      have hih := ih (s.decAccumulate v).nextUnit
      simp only [hin, hrev, hpos, hshift] at hih
      rcases hih with ⟨t, h1, h2, h3, h4, h5⟩ | ⟨m, t, h0, h1, h2, h3, h4, h5, h6, h7⟩
      · exact .inl ⟨t, (hstep n).trans h1, k4.trans h2, k5.trans h3, h4, hpre n h5⟩
      · exact .inr ⟨m + 1, t, by omega, (hstep m).trans h1, k4.trans h2, k5.trans h3, h4, h5, hpre m h6, (hstep n).trans h7⟩

/-- Everything DEC can do: NoCodec, or the fold over the whole input and then the end of the input. -/
theorem execDec_cases (s : State) :
    (s.valid = false ∧ execDec s = .next (s.beginCommand.raise .noCodec)) ∨
    (s.valid = true ∧ execDec s = ((decLoop s.len s.beginCommand.startDec).andThen State.decFinal).finish) := by
  cases h : s.valid <;> simp [execDec, State.requireCodec, h, Flow.andThen, Flow.finish]

/-! ## Counts and ranges -/

/-- `x & mask(n)` is `x mod 2^n`. -/
theorem and_lowMask (x n : Nat) : x &&& lowMask n = x % 2 ^ n := by
  rw [lowMask, Nat.one_shiftLeft, Nat.and_two_pow_sub_one_eq_mod]

/-- The byte step's bit-count, number of symbols, and carry (R90, R91). -/
theorem encByte_counts (s : State) (b : Byte) (h : s.eBits.toNat ≤ 4) :
    (s.encByte b).eBits.toNat = (s.eBits.toNat + 8) % 5 ∧
    (s.encByte b).olen = s.olen + (s.eBits.toNat + 8) / 5 ∧
    (s.encByte b).eCarry.toNat = b.toNat % 2 ^ (s.encByte b).eBits.toNat := by
  have hb := b.isLt
  have hg : s.encGrow.eBits.toNat = s.eBits.toNat + 3 := by
    simp only [State.encGrow_eBits, BitVec.toNat_ofNat]; omega
  have hk : ∀ t : State, t.eBits.toNat ≤ 7 → (t.encKeep b).eCarry.toNat = b.toNat % 2 ^ t.eBits.toNat := by
    intro t ht
    rw [State.encKeep_eCarry, and_lowMask, BitVec.toNat_ofNat]
    have : b.toNat % 2 ^ t.eBits.toNat < 2 ^ t.eBits.toNat := Nat.mod_lt _ (Nat.two_pow_pos _)
    exact Nat.mod_eq_of_lt (Nat.lt_of_lt_of_le this (Nat.pow_le_pow_right (by omega) ht))
  unfold State.encByte State.encMore
  dsimp only
  have he : ∀ v, ((s.encGrow.emit v).encKeep b).eBits.toNat = s.eBits.toNat + 3 := by
    intro v; rw [State.encKeep_eBits, State.emit_eBits, hg]
  split
  · rename_i h4
    rw [he] at h4
    have hc : ((s.encGrow.emit (s.encGrow.fwdAt (s.encGrow.encIndex b))).encKeep b).eCarry.toNat =
        b.toNat % 2 ^ (s.eBits.toNat + 3) := by
      rw [hk _ (by rw [State.emit_eBits, hg]; omega), State.emit_eBits, hg]
    have e1 : ((s.encGrow.emit (s.encGrow.fwdAt (s.encGrow.encIndex b))).encKeep b).encSecond.eBits.toNat = s.eBits.toNat - 2 := by
      show (BitVec.ofNat 3 (((s.encGrow.emit _).encKeep b).eBits.toNat - 5)).toNat = _
      rw [he, BitVec.toNat_ofNat]; omega
    refine ⟨by rw [e1]; omega, ?_, ?_⟩
    · show s.olen + 1 + 1 = _
      omega
    · rw [e1]
      show (BitVec.ofNat 7 (((s.encGrow.emit _).encKeep b).eCarry.toNat &&&
        lowMask (((s.encGrow.emit _).encKeep b).eBits.toNat - 5))).toNat = _
      have hd : 2 ^ (s.eBits.toNat - 2) ∣ 2 ^ (s.eBits.toNat + 3) := Nat.pow_dvd_pow 2 (by omega)
      have hl : b.toNat % 2 ^ (s.eBits.toNat - 2) < 2 ^ (s.eBits.toNat - 2) := Nat.mod_lt _ (Nat.two_pow_pos _)
      have h7 : 2 ^ (s.eBits.toNat - 2) ≤ 2 ^ 7 := Nat.pow_le_pow_right (by omega) (by omega)
      rw [hc, he, and_lowMask, BitVec.toNat_ofNat, show s.eBits.toNat + 3 - 5 = s.eBits.toNat - 2 by omega,
        Nat.mod_mod_of_dvd _ hd]
      exact Nat.mod_eq_of_lt (Nat.lt_of_lt_of_le hl h7)
  · rename_i h4
    rw [he] at h4
    refine ⟨by rw [he]; omega, ?_, ?_⟩
    · show s.olen + 1 = _
      omega
    · rw [hk _ (by rw [State.emit_eBits, hg]; omega)]
      rfl

/-- After `n` byte steps the bit-count and OLEN are those of `8 n` bits more, cut into fives (R91). -/
theorem encLoop_counts (n : Nat) (s : State) (h : s.eBits.toNat ≤ 4) (hc : s.eCarry.toNat < 2 ^ s.eBits.toNat) :
    (encLoop n s).eBits.toNat = (s.eBits.toNat + 8 * n) % 5 ∧
    (encLoop n s).olen = s.olen + (s.eBits.toNat + 8 * n) / 5 ∧
    (encLoop n s).eCarry.toNat < 2 ^ (encLoop n s).eBits.toNat := by
  induction n generalizing s with
  | zero => exact ⟨by simp [encLoop]; omega, by simp [encLoop]; omega, hc⟩
  | succ n ih =>
    obtain ⟨h1, h2, h3⟩ := encByte_counts s (s.inAt s.ipos) h
    obtain ⟨k1, k2, k3⟩ := ih (s.encByte (s.inAt s.ipos)).nextUnit (by rw [State.nextUnit_eBits, h1]; omega)
      (by rw [State.nextUnit_eCarry, State.nextUnit_eBits, h3]; exact Nat.mod_lt _ (Nat.two_pow_pos _))
    refine ⟨?_, ?_, k3⟩
    · simp only [encLoop, k1, State.nextUnit_eBits, h1]; omega
    · simp only [encLoop, k2, State.nextUnit_eBits, State.nextUnit_olen, h1, h2]; omega

/-- The accumulating step's bit-count, number of bytes, and range of the chunk (R105). -/
theorem decAccumulate_counts (s : State) (v : Index) (h : s.dBits.toNat ≤ 7) (hc : s.dChunk.toNat < 2 ^ s.dBits.toNat) :
    (s.decAccumulate v).dBits.toNat = (s.dBits.toNat + 5) % 8 ∧
    (s.decAccumulate v).olen = s.olen + (s.dBits.toNat + 5) / 8 ∧
    (s.decAccumulate v).dChunk.toNat < 2 ^ (s.decAccumulate v).dBits.toNat := by
  have hv := v.isLt
  have hg : (s.decGrow v).dBits.toNat = s.dBits.toNat + 5 := by
    simp only [State.decGrow_dBits, BitVec.toNat_ofNat]; omega
  have hw : (s.dChunk.toNat <<< 5) ||| v.toNat < 2 ^ (s.dBits.toNat + 5) := by
    refine Nat.or_lt_two_pow ?_ (Nat.lt_of_lt_of_le hv (Nat.pow_le_pow_right (by omega) (by omega)))
    rw [Nat.shiftLeft_eq, Nat.pow_add]
    exact Nat.mul_lt_mul_of_pos_right hc (by omega)
  have hl : (s.decGrow v).dChunk.toNat < 2 ^ (s.dBits.toNat + 5) := by
    rw [State.decGrow_dChunk, BitVec.toNat_ofNat]
    exact Nat.lt_of_le_of_lt (Nat.mod_le _ _) hw
  unfold State.decAccumulate
  dsimp only
  split
  · rename_i h7
    rw [hg] at h7
    have e1 : (s.decGrow v).decOutput.dBits.toNat = s.dBits.toNat - 3 := by
      show (BitVec.ofNat 4 ((s.decGrow v).dBits.toNat - 8)).toNat = _
      rw [hg, BitVec.toNat_ofNat]; omega
    refine ⟨by rw [e1]; omega, ?_, ?_⟩
    · show s.olen + 1 = _
      omega
    · rw [e1]
      show (BitVec.ofNat 12 ((s.decGrow v).dChunk.toNat &&& lowMask ((s.decGrow v).dBits.toNat - 8))).toNat < _
      rw [hg, and_lowMask, BitVec.toNat_ofNat, show s.dBits.toNat + 5 - 8 = s.dBits.toNat - 3 by omega]
      exact Nat.lt_of_le_of_lt (Nat.mod_le _ _) (Nat.mod_lt _ (Nat.two_pow_pos _))
  · rename_i h7
    rw [hg] at h7
    refine ⟨by rw [hg]; omega, ?_, by rw [hg]; exact hl⟩
    show s.olen = _
    omega

/-- After `n` symbol steps that go on, the bit-count and OLEN are those of `5 n` bits more, cut into eights (R105). -/
theorem decLoop_counts (n : Nat) (s t : State) (h : s.dBits.toNat ≤ 7) (hc : s.dChunk.toNat < 2 ^ s.dBits.toNat)
    (hr : decLoop n s = .going t) :
    t.dBits.toNat = (s.dBits.toNat + 5 * n) % 8 ∧ t.olen = s.olen + (s.dBits.toNat + 5 * n) / 8 ∧
    t.dChunk.toNat < 2 ^ t.dBits.toNat := by
  induction n generalizing s with
  | zero => cases hr; exact ⟨by omega, by omega, hc⟩
  | succ n ih =>
    cases hv : s.revAt (s.inAt s.ipos) with
    | none => simp [decLoop, State.decSym, hv, Flow.andThen] at hr
    | some v =>
      simp only [decLoop, State.decSym, hv, Flow.andThen] at hr
      obtain ⟨h1, h2, h3⟩ := decAccumulate_counts s v h hc
      obtain ⟨k1, k2, k3⟩ := ih (s.decAccumulate v).nextUnit (by rw [State.nextUnit_dBits, h1]; omega) h3 hr
      refine ⟨?_, ?_, k3⟩
      · rw [k1, State.nextUnit_dBits, h1]; omega
      · rw [k2, State.nextUnit_dBits, State.nextUnit_olen, h1, h2]; omega

/-- Everything DEC can do with a codec: it succeeds, every character in the alphabet; or all are, and the bits left have no byte
to go to; or it stops at the first, at position `m`, that is not. -/
theorem execDec_outcomes (s : State) (hv : s.valid = true) : ∃ t, execDec s = .next t ∧
    ((t.err = .none ∧ InputInAlphabet s ∧ ∃ u, decLoop s.len s.beginCommand.startDec = .going u ∧
        u.decFinal = .going t ∧ DecKeeps s.beginCommand.startDec u ∧ Appends s.beginCommand.startDec u) ∨
      (InputInAlphabet s ∧ ∃ u, decLoop s.len s.beginCommand.startDec = .going u ∧ u.olen = 0 ∧ 0 < u.dBits.toNat ∧
        t = u.raise .invalidInput ∧ DecKeeps s.beginCommand.startDec u ∧ Appends s.beginCommand.startDec u) ∨
      (∃ m u, m < s.len ∧ decLoop m s.beginCommand.startDec = .going u ∧ DecKeeps s.beginCommand.startDec u ∧
        Appends s.beginCommand.startDec u ∧ s.revAt (s.inAt m) = none ∧
        (∀ k, k < m → (s.revAt (s.inAt k)).isSome = true) ∧
        t = { u with errchar := s.inAt m }.raise .invalidCharacter)) := by
  rcases execDec_cases s with ⟨h, _⟩ | ⟨_, h⟩
  · rw [hv] at h; cases h
  rw [h]
  have hz : s.beginCommand.startDec.ipos = 0 := rfl
  rcases decLoop_cases s.len s.beginCommand.startDec with ⟨u, h1, h2, h3, _, h5⟩ | ⟨m, u, h0, h1, h2, h3, _, h5, h6, h7⟩
  · have hin : InputInAlphabet s := fun i hi => by simpa [hz] using h5 i hi
    have herr : u.err = .none := by rw [h2]; rfl
    rw [h1]
    simp only [Flow.andThen]
    by_cases hb : 0 < u.dBits.toNat
    · by_cases ho : u.olen = 0
      · exact ⟨u.raise .invalidInput, by simp [State.decFinal, hb, ho, Flow.finish], .inr (.inl ⟨hin, u, rfl, ho, hb, rfl, h2, h3⟩)⟩
      · exact ⟨u.decMerge, by simp [State.decFinal, hb, ho, Flow.finish],
          .inl ⟨herr, hin, u, rfl, by simp [State.decFinal, hb, ho], h2, h3⟩⟩
    · exact ⟨u, by simp only [State.decFinal, hb, Flow.finish, if_false],
        .inl ⟨herr, hin, u, rfl, by simp only [State.decFinal, hb, if_false], h2, h3⟩⟩
  · rw [h7]
    refine ⟨_, rfl, .inr (.inr ⟨m, u, h0, h1, h2, h3, ?_, fun k hk => ?_, ?_⟩)⟩
    · simpa [hz] using h5
    · simpa [hz] using h6 k hk
    · simp

/-- The end of the input keeps everything but the last unit of the result. -/
theorem decFinal_going {s t : State} (h : s.decFinal = .going t) :
    t = { s with out := t.out } ∧ (t.out = s.out ∨ 0 < s.olen ∧ ∃ v, t.out = s.out.set (s.olen - 1) v) := by
  unfold State.decFinal at h
  split at h
  · split at h
    · cases h
    · rename_i ho
      cases h
      exact ⟨rfl, .inr ⟨by omega, _, rfl⟩⟩
  · cases h
    exact ⟨rfl, .inl rfl⟩

end Sys2Proof.Machine
end

