-- ==== Sys2Proof/Laws/PerInstr.lean ====
section
/-! SUPPORT. Statements for every command as syntax, one lemma per constructor. -/

namespace Sys2Proof.Laws.EncodesItsRow

/-- The command's word has the fields format CMD8 asks for (R50), and the one row of the opcode map it matches (R52) gives the
command back. -/
def Statement (i : Instr) : Prop :=
  wellFormedWord (encode i) = true ∧
    (opcodeRows.filter fun r => r.matchesWord (encode i)).map (fun r => instrOfRow r.opcode (encode i)) = [i]

theorem initr (a : Builtin) : Statement (.initr a) := by cases a <;> exact ⟨by decide, by decide⟩

theorem initb : Statement .initb := ⟨by decide, by decide⟩

theorem enc : Statement .enc := ⟨by decide, by decide⟩

theorem dec : Statement .dec := ⟨by decide, by decide⟩

end Sys2Proof.Laws.EncodesItsRow
end

