-- ==== Sys2Proof/Laws/Step.lean ====
section
/-! SUPPORT. Everything each construction command, each host action and each step can do. -/

namespace Sys2Proof.Machine

/-- Everything INITR can do: `BuildTables` on the characters of the ROM, from the state every command starts in. -/
theorem execInitr_cases (a : Builtin) (s : State) :
    (∃ t, execInitr a s = .next t.setValid ∧
      PassDone (fun i => romAt a (BitVec.ofNat 5 i)) id 0 32 s.beginCommand.clearTables t) ∨
    (∃ j t, j < 32 ∧ (∃ k, k < j ∧ romAt a (BitVec.ofNat 5 k) = romAt a (BitVec.ofNat 5 j)) ∧
      PassDone (fun i => romAt a (BitVec.ofNat 5 i)) id 0 j s.beginCommand.clearTables t ∧
      execInitr a s = .next t.raiseInvalidAlphabet) := by
  rcases buildTables_cases (fun i => romAt a (BitVec.ofNat 5 i)) tick_id s.beginCommand with ⟨t, h1, h2⟩ | ⟨j, t, h1, h2, h3, h4⟩
  · exact .inl ⟨t, by rw [execInitr, h1]; rfl, h2⟩
  · exact .inr ⟨j, t, h1, h2, h3, by rw [execInitr, h4]; rfl⟩

/-- The state in which INITB makes its length check: ERR and OLEN cleared, IPOS at the first unit. -/
def State.startInitb (s : State) : State := { s.beginCommand with ipos := 0 }

/-- Everything INITB can do: the length is wrong, or `BuildTables` on IN succeeds, or it raises at the first position whose
character occurs at an earlier one. -/
theorem execInitb_cases (s : State) :
    (s.len ≠ 32 ∧ execInitb s = .next s.startInitb.raiseInvalidAlphabet) ∨
    (s.len = 32 ∧ ∃ t, execInitb s = .next t.setValid ∧ PassDone s.inAt State.nextUnit 0 32 s.startInitb.clearTables t) ∨
    (s.len = 32 ∧ ∃ j t, j < 32 ∧ (∃ k, k < j ∧ s.inAt k = s.inAt j) ∧
      PassDone s.inAt State.nextUnit 0 j s.startInitb.clearTables t ∧ execInitb s = .next t.raiseInvalidAlphabet) := by
  have hrun : execInitb s =
      (s.startInitb.requireAlphabetLength.andThen fun t => buildTables t.inAt State.nextUnit t).finish := rfl
  have hlen : s.startInitb.len = s.len := rfl
  have hin : s.startInitb.inAt = s.inAt := rfl
  by_cases h : s.len = 32
  · have hgo : s.startInitb.requireAlphabetLength = .going s.startInitb := by
      simp [State.requireAlphabetLength, hlen, h]
    rw [hrun, hgo]
    simp only [Flow.andThen, hin]
    rcases buildTables_cases s.inAt tick_nextUnit s.startInitb with ⟨t, h1, h2⟩ | ⟨j, t, h1, h2, h3, h4⟩
    · exact .inr (.inl ⟨h, t, by rw [h1]; rfl, h2⟩)
    · exact .inr (.inr ⟨h, j, t, h1, h2, h3, by rw [h4]; rfl⟩)
  · have hstop : s.startInitb.requireAlphabetLength = .raised s.startInitb.raiseInvalidAlphabet := by
      simp [State.requireAlphabetLength, hlen, h]
    exact .inl ⟨h, by rw [hrun, hstop]; rfl⟩

/-- Everything a step that answers a next state can have done. -/
inductive StepCase (s t : State) : Prop where
  | idle (pending : s.pending = []) (same : t = s)
  | wroteIn (rest : List HostAction) (i : Nat) (v : Byte) (pending : s.pending = .writeIn i v :: rest)
      (fits : s.fitsIn (i + 1) = true) (result : t = { s with pending := rest, inp := s.inp.set i v, draws := s.draws + 1 })
  | wroteLen (rest : List HostAction) (n : Nat) (pending : s.pending = .writeLen n :: rest)
      (fits : s.fitsIn n = true) (result : t = { s with pending := rest, len := n, draws := s.draws + 1 })
  | performed (rest : List HostAction) (w : Byte) (i : Instr) (pending : s.pending = .issue w :: rest)
      (decoded : decode w = .ok i) (result : exec i { s with pending := rest } = .next t)
  | rejected (rest : List HostAction) (w : Byte) (why : Illegal) (pending : s.pending = .issue w :: rest)
      (decoded : decode w = .error why) (result : t = State.illegalCommand { s with pending := rest })
  | read (rest : List HostAction) (x : Target) (a : Answer) (pending : s.pending = .read x :: rest)
      (result : t = { s with pending := rest, answer := some a })
  | reset (rest : List HostAction) (pending : s.pending = .reset :: rest)
      (result : t = State.doReset { s with pending := rest })

/-- A host read that answers changes nothing but the answer. -/
theorem hostRead_cases {x : Target} {s t : State} (h : hostRead x s = .next t) : ∃ a, t = s.answerWith a := by
  cases x <;> simp only [hostRead, hostReadIn, hostReadOut, hostReadAlpha] at h <;> (try split at h) <;> cases h <;>
    exact ⟨_, rfl⟩

/-- The one inversion of the step. -/
theorem step_cases {s t : State} (h : step s = .next t) : StepCase s t := by
  unfold step nextAction at h
  split at h
  · rename_i hp
    cases h
    exact .idle hp rfl
  · rename_i a rest hp
    cases a with
    | writeIn i v =>
      simp only [act, hostWriteIn] at h
      split at h
      · rename_i hf
        cases h
        exact .wroteIn rest i v hp hf rfl
      · cases h
    | writeLen n =>
      simp only [act, hostWriteLen] at h
      split at h
      · rename_i hf
        cases h
        exact .wroteLen rest n hp hf rfl
      · cases h
    | issue w =>
      simp only [act, hostIssue] at h
      split at h
      · rename_i i hd
        exact .performed rest w i hp hd h
      · rename_i e hd
        cases h
        exact .rejected rest w e hp hd rfl
    | read x =>
      obtain ⟨a, ha⟩ := hostRead_cases h
      exact .read rest x a hp ha
    | reset =>
      cases h
      exact .reset rest hp rfl

end Sys2Proof.Machine
end

