-- ==== Sys2Proof/Tests/Slice0.lean ====
section
/-! SUPPORT. Tests: expected results are from 95_test_vectors and the rules' examples; witnesses that the statements' hypotheses
can be met. -/

namespace Sys2Proof.Tests

open Sys2Proof Sys2Proof.Machine

-- One kernel check at a time: each would otherwise hold a thread of its own.
set_option Elab.async false

/-- The state of an outcome that answers one. -/
def stateOf : Host.Outcome State Fault Refusal → State
  | .next s => s
  | _ => State.reset

/-- A state whose input is a list of units. -/
def withInput (s : State) (units : List Byte) : State :=
  { s with inp := (List.range units.length).zip units, len := units.length }

/-- A state with a built-in alphabet's codec, its tables written down from the ROM row without running a construction. -/
def codec (a : Builtin) : State :=
  { State.reset with
    valid := true
    fwd := romRow a
    rev := ⟨⟨(List.range 256).map fun c =>
      ((romRow a).toList.idxOf? (BitVec.ofNat 8 c)).map (BitVec.ofNat 5)⟩, by simp⟩ }

/-- The codec of an alphabet with an input. -/
def ready (a : Builtin) (units : List Byte) : State := withInput (codec a) units

/-- The result a host may read: `OUT[0..OLEN-1]` as written. -/
def resultOf (s : State) : List (Option Byte) := (List.range s.olen).map s.out.get?

/-! ## Well-formedness, decoding, the listing -/

/-- One ill-formed word for each check of R50 and R54; the checks refuse it. -/
theorem test_wellFormed_refuses :
    opcLegal 0x00 = false ∧ opcLegal 0x50 = false ∧ rsvLegal 0x14 = false ∧ rsvLegal 0x18 = false ∧
    selLegal 0x21 = false ∧ selLegal 0x41 = false ∧ wellFormedWord 0xFF = false ∧ wellFormedWord 0x13 = true := by decide

/-- R58, R60: INITR takes 0 to 3, and `.in` takes ASCII characters. -/
theorem test_line_refuses : lineWellFormed (.initrNumber 4) = false ∧ lineWellFormed (.initrNumber 3) = true ∧
    lineWellFormed (.dotIn ['é']) = false ∧ lineWord (.initrNumber 4) = none := by decide

/-- A buffer out of order is not in canonical form. -/
theorem test_memory_refuses : ¬ Memory.wf [(1, 0x31), (0, 0x30)] ∧ ¬ Memory.wf [(0, 0x31), (0, 0x30)] := by decide

/-- R52: `0001 00ss` with `ss` = 10, `0010 0000`, `0011 0000`, `0100 0000`, written out bit by bit. -/
theorem test_decode_words : decode 0b00010010 = .ok (.initr .exthex) ∧ decode 0b00100000 = .ok .initb ∧
    decode 0b00110000 = .ok .enc ∧ decode 0b01000000 = .ok .dec := ⟨rfl, rfl, rfl, rfl⟩

/-- 95_test_vectors 2.1: illegal words, by the rule each breaks (R54). -/
theorem test_decode_illegal : decode 0x1C = .error .reservedBits ∧ decode 0x24 = .error .reservedBits ∧
    decode 0x22 = .error .selector ∧ decode 0x31 = .error .selector ∧ decode 0x3F = .error .reservedBits ∧
    decode 0x80 = .error .operationCode := ⟨rfl, rfl, rfl, rfl, rfl, rfl⟩

/-- A word that exceeds 8 bits is no command. -/
theorem test_decodeTableWord : decodeTableWord 8 0x40 = some .dec ∧ decodeTableWord 8 0x140 = none := ⟨rfl, rfl⟩

/-- 30_encoding R60: `.in "10"` sets LEN and the ASCII codes. -/
theorem test_dotIn : lineActions State.reset (.dotIn ['1', '0']) = [.writeLen 2, .writeIn 0 0x31, .writeIn 1 0x30] := by decide

/-! ## The commands -/

/-- R72's example: FWD and REV of DEFAULT. -/
theorem test_initr_default :
    let t := stateOf (exec (.initr .default) State.reset)
    t.fwdAt 6 = 0x36 ∧ t.fwdAt 24 = 0x52 ∧ t.revAt 0x34 = some 4 ∧ t.revAt 0x49 = none ∧ t.status = 0x01 := by decide +kernel

/-- 95_test_vectors 2.2: RFC4648. -/
theorem test_initr_rfc4648 :
    let t := stateOf (exec (.initr .rfc4648) State.reset)
    t.fwdAt 31 = 0x37 ∧ t.revAt 0x32 = some 26 ∧ t.revAt 0x30 = none := by decide +kernel

/-- The 32 codes 0x00 to 0x1F (R80). -/
def codes : List Byte := (List.range 32).map (BitVec.ofNat 8)

/-- 95_test_vectors 2.2: INITB on the bytes 00 01 .. 1F. -/
theorem test_initb_codes :
    let t := stateOf (exec .initb (withInput State.reset codes))
    t.status = 0x01 ∧ t.fwdAt 31 = 0x1F ∧ t.revAt 0x07 = some 7 ∧ t.revAt 0x20 = none := by decide +kernel

/-- R80: the last character equal to the first is met at `i` = 31; STATUS is 0x02 and the codec is lost. -/
theorem test_initb_repeated :
    let t := stateOf (exec .initb (withInput (codec .default) (codes.take 31 ++ [0x00])))
    t.status = 0x02 ∧ t.ipos = 31 ∧ t.olen = 0 := by decide +kernel

/-- 95_test_vectors T7: `encode("1") == "64"`. -/
theorem test_enc_one : resultOf (stateOf (exec .enc (ready .default [0x31]))) = [some 0x36, some 0x34] := by decide +kernel

/-- 95_test_vectors 2.3: DE AD BE EF under RFC4648 is `32W353Y`. -/
theorem test_enc_deadbeef : resultOf (stateOf (exec .enc (ready .rfc4648 [0xDE, 0xAD, 0xBE, 0xEF]))) =
    [some 0x33, some 0x32, some 0x57, some 0x33, some 0x35, some 0x33, some 0x59] := by decide +kernel

/-- 95_test_vectors 2.4: `643` decodes to 33, its seven trailing bits merged. -/
theorem test_dec_merges : resultOf (stateOf (exec .dec (ready .default [0x36, 0x34, 0x33]))) = [some 0x33] := by decide +kernel

/-- 95_test_vectors 2.5: `6iI` reports the first offender 0x69. -/
theorem test_dec_offender :
    let t := stateOf (exec .dec (ready .default [0x36, 0x69, 0x49]))
    t.status = 0x05 ∧ t.errchar = 0x69 ∧ t.olen = 0 := by decide +kernel

/-- R126: without a codec an illegal word raises IllegalCommand, and DEC raises NoCodec. -/
theorem test_priority : (stateOf (step (State.reset.withFetchWord 8 0x00))).status = 0x0A ∧
    (stateOf (step (State.reset.withFetchWord 8 0x40))).status = 0x08 := by decide

/-! ## Witnesses of the statements' hypotheses -/

/-- A codec with an InvalidCharacter behind it: RFC4648 does not have the character `0` (0x30). -/
def offended : State := { ready .rfc4648 [0x30] with err := .invalidCharacter, errchar := 0x30 }

theorem witness_decode : decode 0x30 = .ok .enc ∧ decode 0x13 = .ok (.initr .natarea) := ⟨rfl, rfl⟩

theorem witness_idle : State.reset.pending = [] := rfl

theorem witness_illegal_word : (0x00 : Byte) ∉ legalWords ∧ (0xFF : Byte) ∉ legalWords ∧ (0x14 : Byte) ∉ legalWords := by decide

theorem witness_fits : State.reset.fitsIn (0 + 1) = true ∧ { State.reset with maxIn := some 4 }.fitsIn (3 + 1) = true ∧
    { State.reset with maxIn := some 4 }.fitsIn (4 + 1) = false := by decide

/-- With MAX_IN = 4, R5 gives MAX_OUT = 7: `OUT[6]` is the last element. -/
theorem witness_fits_out : { State.reset with maxIn := some 4 }.fitsOut (6 + 1) = true ∧
    { State.reset with maxIn := some 4 }.fitsOut (7 + 1) = false ∧ State.reset.fitsOut (7 + 1) = true := by decide

/-- A read of ERRCHAR, OUT and ALPHA where the spec gives no value answers; past the end of OUT and ALPHA it faults. -/
theorem witness_read_unspecified : let s := { State.reset with maxIn := some 4 }
    s.err ≠ .invalidCharacter ∧ s.olen = 0 ∧ s.valid = false ∧
    ∀ t ∈ [Target.errchar, .outUnit 6, .alpha 31], ∃ u, step { s with pending := [.read t] } = .next u := by
  refine ⟨by decide, rfl, rfl, fun t h => ?_⟩
  simp only [List.mem_cons, List.not_mem_nil, or_false] at h
  rcases h with rfl | rfl | rfl <;> exact ⟨_, rfl⟩

theorem test_read_past_the_end : let s := { State.reset with maxIn := some 4 }
    step { s with pending := [.read (.outUnit 7)] } = .fault .outIndex ∧
    step { s with pending := [.read (.alpha 32)] } = .fault .alphaIndex := ⟨rfl, rfl⟩

theorem witness_read_errchar : offended.err = .invalidCharacter ∧ offended.valid = true := by decide +kernel

theorem witness_read_out : 1 < (stateOf (exec .enc (ready .default [0x31]))).olen := by decide +kernel

theorem witness_read : ∃ t, step { State.reset with pending := [.read .errchar] } = .next t := ⟨_, rfl⟩

theorem witness_next (i : Instr) (h : i = .initr .exthex ∨ i = .initb ∨ i = .enc ∨ i = .dec) :
    ∃ t, exec i State.reset = .next t := by
  rcases h with rfl | rfl | rfl | rfl
  · rcases execInitr_cases .exthex State.reset with ⟨t, h, _⟩ | ⟨_, t, _, _, _, h⟩ <;> exact ⟨_, h⟩
  · exact ⟨_, rfl⟩
  · exact ⟨_, rfl⟩
  · exact ⟨_, rfl⟩

theorem witness_alphabet_distinct :
    (withInput State.reset codes).len = 32 ∧ AlphabetDistinct (withInput State.reset codes) := by
  refine ⟨rfl, fun i j hi hj h => ?_⟩
  have key : ∀ k, k < 32 → (withInput State.reset codes).inAt k = BitVec.ofNat 8 k := by decide +kernel
  rw [key i hi, key j hj] at h
  have := congrArg BitVec.toNat h
  simp only [BitVec.toNat_ofNat] at this
  omega

theorem witness_wrong_length : State.reset.len ≠ 32 ∧ (withInput State.reset (codes.take 31)).len ≠ 32 ∧
    (withInput State.reset (codes ++ [0x20])).len ≠ 32 := by decide

/-- R80: 32 equal characters are met again at `i` = 1. -/
theorem witness_repeated : let s := withInput State.reset (List.replicate 32 0x41)
    s.len = 32 ∧ 1 < 32 ∧ 0 < 1 ∧ s.inAt 1 = s.inAt 0 ∧ ∀ i' j', i' < 1 → j' < i' → s.inAt i' ≠ s.inAt j' :=
  ⟨rfl, by decide, by decide, rfl, fun _ _ _ _ => by omega⟩

theorem witness_builtin_in_buffer : let s := withInput State.reset (romRow .natarea).toList
    s.len = 32 ∧ ∀ k : Index, s.inAt k.toNat = romAt .natarea k := by decide +kernel

theorem witness_failed_initb : ∃ t, exec .initb (codec .default) = .next t ∧ t.err ≠ .none := ⟨_, rfl, by decide⟩

theorem witness_no_codec : State.reset.valid = false := rfl

/-- The byte step at both ends of its range, and where its two clauses meet. -/
theorem witness_byte_step : let s := { State.reset with eBits := 4, eCarry := 15 }
    (s.eBits.toNat ≤ 4 ∧ s.eCarry.toNat < 2 ^ s.eBits.toNat ∧ 2 ≤ s.eBits.toNat) ∧
    (State.reset.eBits.toNat ≤ 4 ∧ State.reset.eCarry.toNat < 2 ^ State.reset.eBits.toNat ∧ State.reset.eBits.toNat ≤ 1) := by
  decide

/-- R92's two clauses: LEN mod 5 = 0 (no bytes, five bytes) and LEN mod 5 = 1; R95 gives the lengths 8 and 2. -/
theorem witness_enc_length : let five := ready .default [0xFF, 0xFF, 0xFF, 0xFF, 0xFF]
    let one := ready .default [0xFF]
    ((ready .default []).valid = true ∧ (ready .default []).len % 5 = 0) ∧
    (five.valid = true ∧ five.len % 5 = 0 ∧ (stateOf (exec .enc five)).olen = 8) ∧
    (one.valid = true ∧ one.len % 5 = 1 ∧ (stateOf (exec .enc one)).olen = 2) := by decide +kernel

theorem witness_has_codec : HasCodec (codec .natarea) := by unfold HasCodec; decide +kernel

/-- Inputs of DEC: none, two characters (a length ENC produces), and one. -/
theorem witness_input_in_alphabet (units : List Byte) (h : units = [] ∨ units = [0x36, 0x34] ∨ units = [0x36]) :
    (ready .default units).valid = true ∧ InputInAlphabet (ready .default units) := by
  unfold InputInAlphabet
  rcases h with rfl | rfl | rfl <;> decide +kernel

theorem witness_dec_lengths : (ready .default [0x36, 0x34]).len ≠ 1 ∧ (ready .default [0x36]).len = 1 ∧
    0 < 5 * (ready .default [0x36]).len % 8 ∧ byteLength (ready .default [0x36]).len = 0 := by decide +kernel

theorem witness_first_invalid : let s := ready .default [0x36, 0x69, 0x49]
    s.valid = true ∧ 1 < s.len ∧ s.revAt (s.inAt 1) = none ∧ ∀ j, j < 1 → s.revAt (s.inAt j) ≠ none := by decide +kernel

/-- The round trip's three states for the data byte 0x31. -/
theorem witness_round_trip :
    let s := ready .default [0x31]
    let t := stateOf (exec .enc s)
    let u := withInput t [0x36, 0x34]
    HasCodec s ∧ exec .enc s = .next t ∧ u.fwd = t.fwd ∧ u.rev = t.rev ∧ u.valid = t.valid ∧ u.len = t.olen ∧
      ∀ j, j < t.olen → some (u.inAt j) = t.out.get? j := by
  refine ⟨by unfold HasCodec; decide +kernel, ?_, rfl, rfl, rfl, by decide +kernel⟩
  rcases execEnc_cases (ready .default [0x31]) with ⟨_, h⟩ | ⟨_, h⟩ <;> simp only [exec, h, stateOf]

theorem witness_feed : (stateOf (exec .enc (ready .default [0x31]))).fitsIn (stateOf (exec .enc (ready .default [0x31]))).olen = true := by
  decide +kernel

/-- Two states that differ in working registers, earlier results, ERR, ERRCHAR and the units past LEN. -/
theorem witness_agree : let s := ready .default [0x31]
    let s' := { s with eBits := 3, dChunk := 9, ipos := 7, olen := 5, err := .illegalCommand, errchar := 0x7F, inp := s.inp.set 1 0x55 }
    s.fwd = s'.fwd ∧ s.rev = s'.rev ∧ s.valid = s'.valid ∧ s.len = s'.len ∧ ∀ p, p < s.len → s.inAt p = s'.inAt p :=
  ⟨rfl, rfl, rfl, rfl, by decide +kernel⟩

theorem witness_no_construction : (∃ t, step { State.reset with pending := [.issue 0x30] } = .next t) ∧
    ∀ a rest, { State.reset with pending := [.issue 0x30] }.pending = a :: rest →
      a ≠ .reset ∧ ∀ w, a = .issue w → w ∉ constructionWords := by
  refine ⟨⟨_, rfl⟩, fun a rest h => ?_⟩
  cases h
  exact ⟨by decide, fun w h => by cases h; decide⟩

theorem witness_errchar_written : let s := { ready .rfc4648 [0x30] with pending := [.issue 0x40] }
    (stateOf (step s)).errchar ≠ s.errchar := by decide +kernel

/-- The invariants' hypotheses at a state with a codec, a result and an error behind it: each step statement has one here. -/
theorem witness_invariants : let s := { offended with pending := [.issue 0x13] }
    BuffersCanonical s ∧ CodecSound s ∧ StatusLegal s ∧ LengthFits s ∧ ResultHeld s ∧ ErrcharBacked s ∧ WorkBounded s := by
  have inverse : ∀ k : Index, offended.revAt (offended.fwdAt k) = some k := by decide +kernel
  have hr : ∀ (c : Byte) (k : Index), offended.revAt c = some k → offended.fwdAt k = c := by
    intro c k h
    simp only [offended, ready, withInput, codec, State.revAt, Vector.getElem_mk, List.getElem_toArray, List.getElem_map,
      List.getElem_range, BitVec.ofNat_toNat, BitVec.setWidth_eq, Option.map_eq_some_iff] at h
    obtain ⟨n, hn, rfl⟩ := h
    obtain ⟨hlt, rfl, _⟩ := List.idxOf?_eq_some_iff.mp hn
    simp only [Vector.length_toList] at hlt
    have : (BitVec.ofNat 5 n).toNat = n := by simpa using Nat.mod_eq_of_lt hlt
    simp only [offended, ready, withInput, codec, State.fwdAt, this, Vector.getElem_toList]
  refine ⟨?_, fun _ => ⟨card_hits inverse hr, inverse, hr⟩, ?_⟩
  · unfold BuffersCanonical; decide +kernel
  · unfold StatusLegal LengthFits ResultHeld ErrcharBacked WorkBounded; decide +kernel

theorem witness_invariants_step : ∃ t, step { offended with pending := [.issue 0x13] } = .next t := by
  show ∃ t, execInitr .natarea { offended with pending := [] } = .next t
  rcases execInitr_cases .natarea { offended with pending := [] } with ⟨t, h, _⟩ | ⟨_, t, _, _, _, h⟩ <;> exact ⟨_, h⟩

end Sys2Proof.Tests
end

section
/-! SUPPORT. O39: which words construct a codec, and that ENC, DEC and an illegal word leave the codec alone (10_state R22). -/

namespace Sys2Proof.Proofs

open Sys2Proof Sys2Proof.Machine

/-! ## The word of a decoded command -/

/-- A word that decodes matches a row of the opcode map, which gives the command (R52). -/
theorem decode_ok_row {w : Byte} {i : Instr} (h : decode w = .ok i) :
    ∃ r ∈ opcodeRows, w &&& r.mask = r.pattern ∧ instrOfRow r.opcode w = i := by
  unfold decode at h
  split at h
  · rename_i r hr
    cases h
    exact ⟨r, List.mem_of_find?_eq_some hr, by simpa [OpcodeRow.matchesWord] using List.find?_some hr, rfl⟩
  · cases h

/-- The row of INITR fixes all of its word but `SEL`, which the named alphabet gives back (R50, R51). -/
theorem encode_initr_of_match : ∀ w : Byte, w &&& 0xFC = 0x10 → encode (.initr (builtinOfSel (selField w))) = w := by
  decide

/-- A word that decodes is the word of its command. -/
theorem encode_of_decode {w : Byte} {i : Instr} (h : decode w = .ok i) : encode i = w := by
  obtain ⟨r, hr, hm, rfl⟩ := decode_ok_row h
  have whole : w &&& 0xFF = w := BitVec.and_allOnes
  simp only [opcodeRows, List.mem_cons, List.not_mem_nil, or_false] at hr
  rcases hr with rfl | rfl | rfl | rfl
  · exact encode_initr_of_match w hm
  all_goals exact (whole.symm.trans hm).symm

/-- A word outside `constructionWords` that decodes is the word of ENC or DEC. -/
theorem enc_or_dec_of_not_construction {w : Byte} {i : Instr} (h : decode w = .ok i) (hw : w ∉ constructionWords) :
    i = .enc ∨ i = .dec := by
  rw [← encode_of_decode h] at hw
  cases i with
  | initr a => exact absurd (by cases a <;> decide) hw
  | initb => exact absurd (by decide) hw
  | enc => exact .inl rfl
  | dec => exact .inr rfl

/-! ## What keeps the codec -/

/-- `t` has the codec of `s`: FWD, REV and VALID. -/
def SameCodec (s t : State) : Prop := t.fwd = s.fwd ∧ t.rev = s.rev ∧ t.valid = s.valid

theorem SameCodec.refl (s : State) : SameCodec s s := ⟨rfl, rfl, rfl⟩

theorem sameCodec_of_encKeeps {s t : State} (h : EncKeeps s t) : SameCodec s t := by
  rw [h]; exact SameCodec.refl s

theorem sameCodec_of_decKeeps {s t : State} (h : DecKeeps s t) : SameCodec s t := by
  rw [h]; exact SameCodec.refl s

/-- ENC keeps the codec, whether it succeeds or raises NoCodec. -/
theorem execEnc_sameCodec {s t : State} (h : execEnc s = .next t) : SameCodec s t := by
  rcases execEnc_cases s with ⟨_, hx⟩ | ⟨_, hx⟩ <;> rw [hx] at h <;> cases h
  · exact SameCodec.refl s
  · obtain ⟨hloop, -⟩ := encLoop_keeps s.len s.beginCommand.startEnc
    obtain ⟨hfinal, -⟩ := encFinal_keeps (encLoop s.len s.beginCommand.startEnc)
    have kept := sameCodec_of_encKeeps (hloop.trans hfinal)
    exact kept

/-- DEC keeps the codec, whether it succeeds or raises NoCodec, InvalidInput or InvalidCharacter. -/
theorem execDec_sameCodec {s t : State} (h : execDec s = .next t) : SameCodec s t := by
  rcases execDec_cases s with ⟨_, hx⟩ | ⟨hv, _⟩
  · rw [hx] at h
    cases h
    exact SameCodec.refl s
  · obtain ⟨t', hx, hcase⟩ := execDec_outcomes s hv
    rw [hx] at h
    cases h
    rcases hcase with ⟨_, _, u, _, hfinal, hu, _⟩ | ⟨_, u, _, _, _, rfl, hu, _⟩ | ⟨_, u, _, _, hu, _, _, _, rfl⟩
    all_goals have kept := sameCodec_of_decKeeps hu
    · obtain ⟨hmerge, -⟩ := decFinal_going hfinal
      rw [hmerge]
      exact kept
    · exact kept
    · exact kept

/-- Settles O39, by the inversion of the step: a word that is performed is the word of ENC or DEC, and nothing else that a
step may do but Reset writes FWD, REV or VALID. -/
theorem onlyConstructionChangesTheCodec : Obligations.OnlyConstructionChangesTheCodec := by
  intro s t h hnot
  cases step_cases h with
  | idle _ same => rw [same]; exact SameCodec.refl s
  | wroteIn _ _ _ _ _ result => rw [result]; exact SameCodec.refl s
  | wroteLen _ _ _ _ result => rw [result]; exact SameCodec.refl s
  | read _ _ _ _ result => rw [result]; exact SameCodec.refl s
  | rejected _ _ _ _ _ result => rw [result]; exact SameCodec.refl s
  | reset rest pending _ => exact absurd rfl (hnot _ _ pending).1
  | performed rest w i pending decoded result =>
    obtain ⟨-, hword⟩ := hnot _ _ pending
    rcases enc_or_dec_of_not_construction decoded (hword w rfl) with rfl | rfl
    · have kept := execEnc_sameCodec result
      exact kept
    · have kept := execDec_sameCodec result
      exact kept

end Sys2Proof.Proofs
end

section
/-! SUPPORT. O7: which words are illegal, how many there are, and what issuing one does (30_encoding R54). -/

namespace Sys2Proof.Proofs

open Sys2Proof Sys2Proof.Machine

/-- R54's two ways to tell the words apart, the fields of R50 and the list, agree on each of the 256 words. -/
theorem wellFormedWord_iff_mem_legalWords : ∀ w : Byte, wellFormedWord w = true ↔ w ∈ legalWords := by decide

/-- A word is illegal exactly when one of the three field checks fails. -/
theorem not_mem_legalWords_iff_field (w : Byte) :
    w ∉ legalWords ↔ opcLegal w = false ∨ rsvLegal w = false ∨ selLegal w = false := by
  rw [← wellFormedWord_iff_mem_legalWords, Bool.not_eq_true, wellFormedWord, Bool.and_eq_false_iff, Bool.and_eq_false_iff,
    or_assoc]

/-- The illegal words are all the 256 but the seven. -/
theorem card_illegalWords : (Finset.univ.filter fun n : Fin 256 => BitVec.ofNat 8 n.val ∉ legalWords).card = 249 := by
  have seven : (Finset.univ.filter fun n : Fin 256 => BitVec.ofNat 8 n.val ∈ legalWords).card = 7 := by decide
  have all := Finset.card_filter_add_card_filter_not (s := Finset.univ) fun n : Fin 256 => BitVec.ofNat 8 n.val ∈ legalWords
  rw [Finset.card_univ, Fintype.card_fin] at all
  omega

theorem encode_mem_legalWords (i : Instr) : encode i ∈ legalWords := by
  cases i with
  | initr a => cases a <;> decide
  | initb => decide
  | enc => decide
  | dec => decide

/-- A word that decoded would be the word of its command, and that is legal. -/
theorem decode_error_of_not_mem_legalWords {w : Byte} (h : w ∉ legalWords) : ∃ why, decode w = .error why := by
  cases hd : decode w with
  | error why => exact ⟨why, rfl⟩
  | ok i => exact absurd (encode_of_decode hd ▸ encode_mem_legalWords i) h

/-- Issuing a word that does not decode raises IllegalCommand in the state that has lost the issued action. -/
theorem step_issue_of_decode_error (s : State) {w : Byte} (rest : List HostAction) {why : Illegal}
    (h : decode w = .error why) :
    step { s with pending := .issue w :: rest } = .next (State.illegalCommand { s with pending := rest }) := by
  simp [step, nextAction, act, hostIssue, h]

/-- Settles O7: an illegal word cannot decode, so that the step raises IllegalCommand and does nothing else. -/
theorem illegalWordRaisesIllegalCommand : Obligations.IllegalWordRaisesIllegalCommand := by
  refine ⟨not_mem_legalWords_iff_field, card_illegalWords, fun s w rest hw => ?_⟩
  obtain ⟨why, hd⟩ := decode_error_of_not_mem_legalWords hw
  exact step_issue_of_decode_error s rest hd

end Sys2Proof.Proofs
end

section
/-! SUPPORT. O22: what a failed INITB leaves, and that ENC and DEC raise NoCodec where there is no codec (40_construct R78). -/

namespace Sys2Proof.Proofs

open Sys2Proof Sys2Proof.Machine

theorem passFrame_err {s t : State} (h : PassFrame s t) : t.err = s.err := by rw [h]

/-- INITB raises one error only, and raising it is the last thing that it does (R75, R76). -/
theorem execInitb_eq_raiseInvalidAlphabet {s t : State} (h : execInitb s = .next t) (herr : t.err ≠ .none) :
    ∃ u : State, t = u.raiseInvalidAlphabet := by
  rcases execInitb_cases s with ⟨_, hx⟩ | ⟨_, u, hx, hdone⟩ | ⟨_, _, u, _, _, _, hx⟩ <;> rw [hx] at h <;> cases h
  · exact ⟨_, rfl⟩
  · exact absurd (passFrame_err hdone.frame) herr
  · exact ⟨u, rfl⟩

/-- Without a codec, ENC and DEC do no more than raise NoCodec (60_exceptions R122). -/
theorem exec_enc_or_dec_of_not_valid {s : State} (hv : s.valid = false) {i : Instr} (hi : i ∈ [Instr.enc, Instr.dec]) :
    exec i s = .next (s.beginCommand.raise .noCodec) := by
  have hcodec : ¬ s.valid = true := by simp [hv]
  rcases List.mem_pair.1 hi with rfl | rfl
  · rcases execEnc_cases s with ⟨_, hx⟩ | ⟨hvalid, _⟩
    · exact hx
    · exact absurd hvalid hcodec
  · rcases execDec_cases s with ⟨_, hx⟩ | ⟨hvalid, _⟩
    · exact hx
    · exact absurd hvalid hcodec

/-- Settles O22: the error can only be the InvalidAlphabet that INITB raises last, which clears VALID, and without a codec ENC
and DEC raise NoCodec. -/
theorem failedInitbLosesTheCodec : Obligations.FailedInitbLosesTheCodec := by
  intro s t h herr
  obtain ⟨u, rfl⟩ := execInitb_eq_raiseInvalidAlphabet h herr
  exact ⟨rfl, rfl, rfl, fun i hi => ⟨_, exec_enc_or_dec_of_not_valid rfl hi, rfl, rfl⟩⟩

end Sys2Proof.Proofs
end

section
/-! SUPPORT. O33: where DEC stops at a character outside the alphabet, and what it leaves (42_decode R103). -/

namespace Sys2Proof.Proofs

open Sys2Proof Sys2Proof.Machine

/-- A host read of ALPHA sees FWD while there is a codec (R20). -/
theorem readAlpha_of_valid {s : State} (hv : s.valid = true) (k : Index) : s.readAlpha k.toNat = s.fwdAt k := by
  simp [State.readAlpha, hv]

theorem fwdAt_of_sameCodec {s t : State} (h : SameCodec s t) (k : Index) : t.fwdAt k = s.fwdAt k := by
  simp only [State.fwdAt, h.1]

/-- DEC stops at the least position whose character REV misses, with that character in ERRCHAR. -/
theorem execDec_first_invalid {s : State} {i : Nat} (hv : s.valid = true) (hi : i < s.len)
    (hmiss : s.revAt (s.inAt i) = none) (hfirst : ∀ j, j < i → s.revAt (s.inAt j) ≠ none) :
    ∃ u : State, execDec s = .next (State.raise { u with errchar := s.inAt i } .invalidCharacter) := by
  have outside : ¬ InputInAlphabet s := fun hin => by simpa [hmiss] using hin i hi
  obtain ⟨t, hx, ⟨_, hin, _⟩ | ⟨hin, _⟩ | ⟨m, u, _, _, _, _, hm, hbefore, rfl⟩⟩ := execDec_outcomes s hv
  · exact absurd hin outside
  · exact absurd hin outside
  · rcases Nat.lt_trichotomy m i with hlt | rfl | hgt
    · exact absurd hm (hfirst m hlt)
    · exact ⟨u, hx⟩
    · exact absurd (hbefore i hgt) (by simp [hmiss])

/-- Settles O33: DEC can only stop at the least position that REV misses, and raising there keeps the codec. -/
theorem decReportsTheFirstInvalidCharacter : Obligations.DecReportsTheFirstInvalidCharacter := by
  intro s i hv hi hmiss hfirst
  obtain ⟨u, hx⟩ := execDec_first_invalid hv hi hmiss hfirst
  have kept := execDec_sameCodec hx
  have valid := kept.2.2.trans hv
  exact ⟨_, hx, rfl, rfl, rfl, valid, fun k => (readAlpha_of_valid valid k).trans (fwdAt_of_sameCodec kept k)⟩

end Sys2Proof.Proofs
end

section
/-! SUPPORT. O36: the number that a sequence of digits of `w` bits spells, and the fields of its bits. -/

namespace Sys2Proof.Proofs

open Sys2Proof Sys2Proof.Machine

/-- The number whose digits of `w` bits, most significant first, are `d 0 .. d (n-1)`: the bit string of the first `n` units. -/
def digitsNumber {w : Nat} (d : Nat → BitVec w) : Nat → Nat
  | 0 => 0
  | n + 1 => digitsNumber d n * 2 ^ w + (d n).toNat

section

variable {w : Nat} (d : Nat → BitVec w)

theorem digitsNumber_lt (n : Nat) : digitsNumber d n < 2 ^ (w * n) := by
  induction n with
  | zero => simp [digitsNumber]
  | succ n ih =>
    have digit := (d n).isLt
    calc digitsNumber d n * 2 ^ w + (d n).toNat < (digitsNumber d n + 1) * 2 ^ w := by rw [Nat.succ_mul]; omega
      _ ≤ 2 ^ (w * n) * 2 ^ w := Nat.mul_le_mul_right _ ih
      _ = 2 ^ (w * (n + 1)) := by rw [← Nat.pow_add, Nat.mul_succ]

theorem digitsNumber_succ_div (n : Nat) : digitsNumber d (n + 1) / 2 ^ w = digitsNumber d n := by
  rw [digitsNumber, Nat.mul_comm, Nat.mul_add_div (Nat.two_pow_pos w), Nat.div_eq_of_lt (d n).isLt, Nat.add_zero]

theorem ofNat_digitsNumber_succ (n : Nat) : BitVec.ofNat w (digitsNumber d (n + 1)) = d n := by
  apply BitVec.eq_of_toNat_eq
  rw [BitVec.toNat_ofNat, digitsNumber, Nat.mul_add_mod_self_right, Nat.mod_eq_of_lt (d n).isLt]

/-- The leading digits are what is left when the `e` last ones are shifted out. -/
theorem digitsNumber_div (n e : Nat) : digitsNumber d (n + e) / 2 ^ (w * e) = digitsNumber d n := by
  induction e with
  | zero => simp
  | succ e ih => rw [Nat.mul_succ, Nat.add_comm (w * e), Nat.pow_add, ← Nat.div_div_eq_div_mul, ← Nat.add_assoc,
      digitsNumber_succ_div, ih]

/-- Each digit is read off the number at its place. -/
theorem ofNat_digitsNumber_div {n j : Nat} (h : j < n) :
    BitVec.ofNat w (digitsNumber d n / 2 ^ (w * (n - (j + 1)))) = d j := by
  obtain ⟨e, rfl⟩ := Nat.exists_eq_add_of_lt h
  rw [show j + e + 1 - (j + 1) = e by omega, Nat.add_right_comm, digitsNumber_div, ofNat_digitsNumber_succ]

/-- A number is the number of its own digits. -/
theorem digitsNumber_of_digits {n N : Nat} (hN : N < 2 ^ (w * n))
    (h : ∀ j, j < n → d j = BitVec.ofNat w (N / 2 ^ (w * (n - (j + 1))))) : digitsNumber d n = N := by
  have leading : ∀ k, k ≤ n → digitsNumber d k = N / 2 ^ (w * (n - k)) := by
    intro k hk
    induction k with
    | zero => rw [digitsNumber, Nat.sub_zero, Nat.div_eq_of_lt hN]
    | succ k ih =>
      have place : w * (n - k) = w * (n - (k + 1)) + w := by rw [← Nat.mul_succ]; congr 1; omega
      rw [digitsNumber, ih (by omega), h k hk, BitVec.toNat_ofNat, place, Nat.pow_add, ← Nat.div_div_eq_div_mul,
        Nat.div_add_mod']
  simpa using leading n (Nat.le_refl n)

end

/-- Of a number whose last `a` bits are `b`, the low `c + a` bits depend on the low `c` bits before them. -/
theorem held_mod (V a b c : Nat) : (V % 2 ^ c * 2 ^ a + b) % 2 ^ (c + a) = (V * 2 ^ a + b) % 2 ^ (c + a) := by
  rw [Nat.add_mod, Nat.add_mod (V * 2 ^ a), Nat.pow_add, Nat.mul_mod_mul_right, Nat.mul_mod_mul_right, Nat.mod_mod]

/-- So does every field of `w` bits among them. -/
theorem ofNat_held_div (V b : Nat) {a c e w : Nat} (h : e + w ≤ c + a) :
    BitVec.ofNat w ((V % 2 ^ c * 2 ^ a + b) / 2 ^ e) = BitVec.ofNat w ((V * 2 ^ a + b) / 2 ^ e) := by
  have cut : ∀ x, x / 2 ^ e % 2 ^ w = x % 2 ^ (c + a) % 2 ^ (e + w) / 2 ^ e := by
    intro x
    rw [Nat.mod_mod_of_dvd _ (Nat.pow_dvd_pow 2 h), Nat.pow_add, Nat.mod_mul_right_div_self]
  apply BitVec.eq_of_toNat_eq
  rw [BitVec.toNat_ofNat, BitVec.toNat_ofNat, cut, cut, held_mod]

end Sys2Proof.Proofs
end

section
/-! SUPPORT. O36: what ENC writes, as the successive fives of the data's number (41_encode R88 to R93). -/

namespace Sys2Proof.Proofs

open Sys2Proof Sys2Proof.Machine

theorem encGrow_bits {s : State} (h : s.eBits.toNat ≤ 4) : s.encGrow.eBits.toNat = s.eBits.toNat + 3 := by
  rw [State.encGrow_eBits, BitVec.toNat_ofNat]; omega

/-- The first index of a byte step is the top five of the bits held, carry and byte. -/
theorem encIndex_encGrow {s : State} (b : Byte) (h : s.eBits.toNat ≤ 4) :
    s.encGrow.encIndex b = BitVec.ofNat 5 ((s.eCarry.toNat * 256 + b.toNat) / 2 ^ (s.eBits.toNat + 3)) := by
  have hb := b.isLt
  rw [State.encIndex, encGrow_bits h, State.encGrow_eCarry]
  congr 1
  generalize s.eBits.toNat = c at h
  have low : b.toNat >>> (c + 3) < 2 ^ (8 - (c + 3)) := by
    rw [Nat.shiftRight_eq_div_pow, Nat.div_lt_iff_lt_mul (Nat.two_pow_pos _), ← Nat.pow_add]
    rwa [show 8 - (c + 3) + (c + 3) = 8 by omega]
  rw [← Nat.shiftLeft_add_eq_or_of_lt low, Nat.shiftLeft_eq, Nat.shiftRight_eq_div_pow]
  have split : 256 = 2 ^ (8 - (c + 3)) * 2 ^ (c + 3) := by rw [← Nat.pow_add, show 8 - (c + 3) + (c + 3) = 8 by omega]
  rw [split, ← Nat.mul_assoc, Nat.mul_comm _ (2 ^ (c + 3)), Nat.mul_add_div (Nat.two_pow_pos _)]

/-- The second index of a byte step is the next five of the bits held. -/
theorem ofNat_second_five (x c : Nat) (b : Byte) (h2 : 2 ≤ c) (h4 : c ≤ 4) :
    BitVec.ofNat 5 ((b.toNat % 2 ^ (c + 3)) >>> (c - 2)) = BitVec.ofNat 5 ((x * 256 + b.toNat) / 2 ^ (c - 2)) := by
  apply BitVec.eq_of_toNat_eq
  rw [BitVec.toNat_ofNat, BitVec.toNat_ofNat, Nat.shiftRight_eq_div_pow]
  interval_cases c <;> omega

/-- The byte step after its first symbol, the byte's lower bits being the carry (R88). -/
def encFirst (s : State) (b : Byte) : State := (s.encGrow.emit (s.encGrow.fwdAt (s.encGrow.encIndex b))).encKeep b

theorem encByte_eq_encMore (s : State) (b : Byte) : s.encByte b = (encFirst s b).encMore := rfl

@[simp] theorem encFirst_olen (s : State) (b : Byte) : (encFirst s b).olen = s.olen + 1 := rfl

@[simp] theorem encFirst_fwdAt (s : State) (b : Byte) (k : Index) : (encFirst s b).fwdAt k = s.fwdAt k := rfl

theorem encFirst_eBits {s : State} (b : Byte) (h : s.eBits.toNat ≤ 4) : (encFirst s b).eBits.toNat = s.eBits.toNat + 3 :=
  encGrow_bits h

theorem encFirst_eCarry {s : State} (b : Byte) (h : s.eBits.toNat ≤ 4) :
    (encFirst s b).eCarry.toNat = b.toNat % 2 ^ (s.eBits.toNat + 3) := by
  have small : b.toNat % 2 ^ (s.eBits.toNat + 3) < 2 ^ 7 :=
    Nat.lt_of_lt_of_le (Nat.mod_lt _ (Nat.two_pow_pos _)) (Nat.pow_le_pow_right (by omega) (by omega))
  rw [encFirst, State.encKeep_eCarry, State.emit_eBits, encGrow_bits h, and_lowMask, BitVec.toNat_ofNat,
    Nat.mod_eq_of_lt small]

theorem encFirst_symbol {s : State} (b : Byte) (h : s.eBits.toNat ≤ 4) :
    (encFirst s b).out.get? s.olen =
      some (s.fwdAt (BitVec.ofNat 5 ((s.eCarry.toNat * 256 + b.toNat) / 2 ^ (s.eBits.toNat + 3)))) := by
  rw [← encIndex_encGrow b h]
  simp [encFirst]

theorem encSecond_out (s : State) :
    s.encSecond.out = s.out.set s.olen (s.fwdAt (BitVec.ofNat 5 (s.eCarry.toNat >>> (s.eBits.toNat - 5)))) := rfl

/-- The symbols of a byte step are the successive fives of the bits held, carry and byte (R88). -/
theorem encByte_symbol {s : State} (b : Byte) (h : s.eBits.toNat ≤ 4) {i : Nat} (hi : i < (s.eBits.toNat + 8) / 5) :
    (s.encByte b).out.get? (s.olen + i) =
      some (s.fwdAt (BitVec.ofNat 5 ((s.eCarry.toNat * 256 + b.toNat) / 2 ^ (s.eBits.toNat + 8 - 5 * (i + 1))))) := by
  rw [encByte_eq_encMore, State.encMore, encFirst_eBits b h]
  obtain rfl | rfl : i = 0 ∨ i = 1 := by omega
  · rw [show s.eBits.toNat + 8 - 5 * (0 + 1) = s.eBits.toNat + 3 by omega, ← encFirst_symbol b h, Nat.add_zero]
    split
    · rw [encSecond_out, encFirst_olen, Memory.get?_set_ne _ _ (by omega)]; rfl
    · rfl
  · rw [if_pos (by omega), encSecond_out, encFirst_olen, Memory.get?_set, if_pos rfl, encFirst_fwdAt, encFirst_eCarry b h,
      encFirst_eBits b h, show s.eBits.toNat + 8 - 5 * (1 + 1) = s.eBits.toNat - 2 by omega,
      show s.eBits.toNat + 3 - 5 = s.eBits.toNat - 2 by omega, ofNat_second_five s.eCarry.toNat _ b (by omega) h]

/-- The last byte step of a fold is done after all the others. -/
theorem encLoop_succ (n : Nat) (s : State) :
    encLoop (n + 1) s = ((encLoop n s).encByte ((encLoop n s).inAt (encLoop n s).ipos)).nextUnit := by
  induction n generalizing s with
  | zero => rfl
  | succ n ih => rw [encLoop, ih]; rfl

/-- The state in which ENC's byte steps begin. -/
abbrev encStart (s : State) : State := s.beginCommand.startEnc

/-- After `n` byte steps of ENC the codec and the input are as before, and the counts those of `8 n` bits. -/
theorem encLoop_encStart (n : Nat) (s : State) :
    (encLoop n (encStart s)).fwdAt = s.fwdAt ∧ (encLoop n (encStart s)).inAt = s.inAt ∧
    (encLoop n (encStart s)).ipos = n ∧ (encLoop n (encStart s)).eBits.toNat = 8 * n % 5 ∧
    (encLoop n (encStart s)).olen = 8 * n / 5 := by
  obtain ⟨keeps, -, pos⟩ := encLoop_keeps n (encStart s)
  obtain ⟨bits, count, -⟩ := encLoop_counts n (encStart s) (by simp) (by simp)
  refine ⟨by rw [keeps]; rfl, by rw [keeps]; rfl, by simpa using pos, by simpa using bits, by simpa using count⟩

theorem encLoop_encStart_succ (n : Nat) (s : State) :
    encLoop (n + 1) (encStart s) = ((encLoop n (encStart s)).encByte (s.inAt n)).nextUnit := by
  obtain ⟨-, input, pos, -⟩ := encLoop_encStart n s
  rw [encLoop_succ, input, pos]

/-- The carry is the low bits of the data read so far (R91). -/
theorem encLoop_carry (n : Nat) (s : State) :
    (encLoop n (encStart s)).eCarry.toNat = digitsNumber s.inAt n % 2 ^ (8 * n % 5) := by
  cases n with
  | zero => simp [encLoop, digitsNumber]
  | succ n =>
    obtain ⟨-, -, -, bits, -⟩ := encLoop_encStart n s
    obtain ⟨bits', -, carry⟩ := encByte_counts (encLoop n (encStart s)) (s.inAt n) (by omega)
    have low : 2 ^ (8 * (n + 1) % 5) ∣ digitsNumber s.inAt n * 2 ^ 8 :=
      Dvd.dvd.mul_left (Nat.pow_dvd_pow 2 (by omega)) _
    rw [encLoop_encStart_succ, State.nextUnit_eCarry, carry, bits', bits, digitsNumber,
      show (8 * n % 5 + 8) % 5 = 8 * (n + 1) % 5 by omega, Nat.add_mod, Nat.mod_eq_zero_of_dvd low, Nat.zero_add, Nat.mod_mod]

/-- The byte steps emit the successive fives of the data's bits (R93). -/
theorem encLoop_symbol (n : Nat) (s : State) {j : Nat} (hj : j < 8 * n / 5) :
    (encLoop n (encStart s)).out.get? j =
      some (s.fwdAt (BitVec.ofNat 5 (digitsNumber s.inAt n / 2 ^ (8 * n - 5 * (j + 1))))) := by
  induction n with
  | zero => omega
  | succ n ih =>
    obtain ⟨table, -, -, bits, count⟩ := encLoop_encStart n s
    rw [encLoop_encStart_succ, State.nextUnit_out]
    by_cases old : j < 8 * n / 5
    · obtain ⟨-, appends⟩ := encByte_keeps (encLoop n (encStart s)) (s.inAt n)
      rw [appends.below j (by omega), ih old, show 8 * (n + 1) - 5 * (j + 1) = 8 + (8 * n - 5 * (j + 1)) by omega,
        Nat.pow_add, ← Nat.div_div_eq_div_mul, digitsNumber_succ_div]
    · obtain ⟨i, rfl⟩ := Nat.exists_eq_add_of_le (Nat.le_of_not_lt old)
      have new := encByte_symbol (s := encLoop n (encStart s)) (s.inAt n) (by omega) (i := i) (by omega)
      rw [count, table, bits, encLoop_carry] at new
      rw [new, show (256 : Nat) = 2 ^ 8 from rfl, ofNat_held_div _ _ (by omega), ← digitsNumber,
        show 8 * n % 5 + 8 - 5 * (i + 1) = 8 * (n + 1) - 5 * (8 * n / 5 + i + 1) by omega]

/-- The number of the data's bit string with its pad bits, a whole number of groups long: `S'` of R93. -/
def paddedNumber (s : State) : Nat := digitsNumber s.inAt s.len * 2 ^ (5 * textLength s.len - 8 * s.len)

/-- ENC with a codec writes the successive fives of the padded data (R93). -/
theorem execEnc_symbols {s t : State} (hv : s.valid = true) (h : execEnc s = .next t) :
    t.olen = textLength s.len ∧ ∀ j, j < textLength s.len →
      t.out.get? j = some (s.fwdAt (BitVec.ofNat 5 (paddedNumber s / 2 ^ (5 * (textLength s.len - (j + 1)))))) := by
  rcases execEnc_cases s with ⟨hno, _⟩ | ⟨_, hx⟩
  · simp [hv] at hno
  obtain rfl : (encLoop s.len (encStart s)).encFinal = t := by rw [hx] at h; cases h; rfl
  obtain ⟨table, -, -, bits, count⟩ := encLoop_encStart s.len s
  have whole : ∀ j, j < 8 * s.len / 5 → (encLoop s.len (encStart s)).out.get? j =
      some (s.fwdAt (BitVec.ofNat 5 (paddedNumber s / 2 ^ (5 * (textLength s.len - (j + 1)))))) := by
    intro j hj
    rw [encLoop_symbol s.len s hj, paddedNumber, show 5 * (textLength s.len - (j + 1)) =
      8 * s.len - 5 * (j + 1) + (5 * textLength s.len - 8 * s.len) by unfold textLength; omega, Nat.pow_add _ (8 * s.len - _),
      Nat.mul_div_mul_right _ _ (Nat.two_pow_pos _)]
  unfold State.encFinal
  split
  · rename_i left
    have last : textLength s.len = 8 * s.len / 5 + 1 := by unfold textLength; omega
    refine ⟨by rw [State.emit_olen, count, last], fun j hj => ?_⟩
    obtain hj | rfl : j < 8 * s.len / 5 ∨ j = 8 * s.len / 5 := by omega
    · rw [State.emit_out, Memory.get?_set_ne _ _ (by omega), whole j hj]
    · have group := ofNat_held_div (digitsNumber s.inAt s.len) 0 (a := 5 - 8 * s.len % 5) (c := 8 * s.len % 5) (e := 0)
        (w := 5) (by omega)
      simp only [Nat.pow_zero, Nat.div_one, Nat.add_zero] at group
      rw [State.emit_out, count, Memory.get?_set, if_pos rfl, table, bits, encLoop_carry, Nat.shiftLeft_eq, group,
        paddedNumber, last, Nat.sub_self, Nat.mul_zero, Nat.pow_zero, Nat.div_one,
        show 5 * (8 * s.len / 5 + 1) - 8 * s.len = 5 - 8 * s.len % 5 by omega]
  · have last : textLength s.len = 8 * s.len / 5 := by unfold textLength; omega
    exact ⟨count.trans last.symm, fun j hj => whole j (last ▸ hj)⟩

end Sys2Proof.Proofs
end

section
/-! SUPPORT. O36: what DEC writes, as the successive eights of the text's number (42_decode R104 to R109). -/

namespace Sys2Proof.Proofs

open Sys2Proof Sys2Proof.Machine

/-- The last symbol step of a fold is done after all the others. -/
theorem decLoop_succ (n : Nat) (s : State) :
    decLoop (n + 1) s =
      (decLoop n s).andThen fun t => (t.decSym (t.inAt t.ipos)).andThen fun u => .going u.nextUnit := by
  induction n generalizing s with
  | zero => rfl
  | succ n ih =>
    rw [decLoop, decLoop]
    cases s.decSym (s.inAt s.ipos) with
    | going t => exact ih t.nextUnit
    | raised t => rfl

/-- The state in which DEC's symbol steps begin. -/
abbrev decStart (s : State) : State := s.beginCommand.startDec

/-- After `n` symbol steps of DEC that go on, the codec and the input are as before, and the counts those of `5 n` bits. -/
theorem decLoop_decStart {n : Nat} {s t : State} (h : decLoop n (decStart s) = .going t) :
    t.revAt = s.revAt ∧ t.inAt = s.inAt ∧ t.ipos = n ∧ t.dBits.toNat = 5 * n % 8 ∧ t.olen = 5 * n / 8 := by
  obtain ⟨bits, count, -⟩ := decLoop_counts n (decStart s) t (by simp) (by simp) h
  rcases decLoop_cases n (decStart s) with ⟨t', hx, keeps, -, pos, -⟩ | ⟨_, _, _, _, _, _, _, _, _, hx⟩
  · obtain rfl : t' = t := by rw [hx] at h; cases h; rfl
    refine ⟨by rw [keeps]; rfl, by rw [keeps]; rfl, by simpa using pos, by simpa using bits, by simpa using count⟩
  · rw [hx] at h; cases h

/-- The last of `n + 1` symbol steps that go on accumulates the index of character `n`. -/
theorem decLoop_decStart_succ {n : Nat} {s u : State} (h : decLoop (n + 1) (decStart s) = .going u) :
    ∃ t, decLoop n (decStart s) = .going t ∧ u = (t.decAccumulate (inputIndex s n)).nextUnit := by
  rw [decLoop_succ] at h
  cases hx : decLoop n (decStart s) with
  | raised t => rw [hx] at h; cases h
  | going t =>
    obtain ⟨look, input, pos, -⟩ := decLoop_decStart hx
    rw [hx] at h
    simp only [Flow.andThen, State.decSym, look, input, pos] at h
    refine ⟨t, rfl, ?_⟩
    cases hc : s.revAt (s.inAt n) with
    | none => simp [hc] at h
    | some v => simpa [hc, inputIndex, eq_comm] using h

theorem decGrow_bits {s : State} (v : Index) (h : s.dBits.toNat ≤ 7) : (s.decGrow v).dBits.toNat = s.dBits.toNat + 5 := by
  rw [State.decGrow_dBits, BitVec.toNat_ofNat]; omega

/-- The chunk with a symbol taken in is the number of the bits held. -/
theorem decGrow_chunk {s : State} (v : Index) (h : s.dBits.toNat ≤ 7) (hc : s.dChunk.toNat < 2 ^ s.dBits.toNat) :
    (s.decGrow v).dChunk.toNat = s.dChunk.toNat * 2 ^ 5 + v.toNat := by
  have chunk : s.dChunk.toNat < 2 ^ 7 := Nat.lt_of_lt_of_le hc (Nat.pow_le_pow_right (by omega) h)
  have digit := v.isLt
  rw [State.decGrow_dChunk, ← Nat.shiftLeft_add_eq_or_of_lt digit, Nat.shiftLeft_eq, BitVec.toNat_ofNat, Nat.mod_eq_of_lt]
  omega

theorem decOutput_out (s : State) :
    s.decOutput.out = s.out.set s.olen (BitVec.ofNat 8 (s.dChunk.toNat >>> (s.dBits.toNat - 8))) := rfl

theorem decOutput_chunk (s : State) : s.decOutput.dChunk.toNat = s.dChunk.toNat % 2 ^ (s.dBits.toNat - 8) := by
  have width := s.dChunk.isLt
  show (BitVec.ofNat 12 (s.dChunk.toNat &&& lowMask (s.dBits.toNat - 8))).toNat = _
  rw [and_lowMask, BitVec.toNat_ofNat, Nat.mod_eq_of_lt (Nat.lt_of_le_of_lt (Nat.mod_le _ _) width)]

/-- What an accumulating step holds on to: the lower bits of those held, fewer than eight (R104). -/
theorem decAccumulate_chunk {s : State} (v : Index) (h : s.dBits.toNat ≤ 7) (hc : s.dChunk.toNat < 2 ^ s.dBits.toNat) :
    (s.decAccumulate v).dChunk.toNat = (s.dChunk.toNat * 2 ^ 5 + v.toNat) % 2 ^ ((s.dBits.toNat + 5) % 8) := by
  rw [← decGrow_chunk v h hc]
  unfold State.decAccumulate
  dsimp only
  split
  · rename_i full
    rw [decGrow_bits v h] at full
    rw [decOutput_chunk, decGrow_bits v h, show (s.dBits.toNat + 5) % 8 = s.dBits.toNat + 5 - 8 by omega]
  · rename_i few
    rw [decGrow_bits v h] at few
    have digit := v.isLt
    rw [decGrow_chunk v h hc, Nat.mod_eq_of_lt (by omega : s.dBits.toNat + 5 < 8), Nat.mod_eq_of_lt]
    rw [Nat.pow_add]
    omega

/-- The byte that an accumulating step emits is the top eight of the bits held (R104). -/
theorem decAccumulate_byte {s : State} (v : Index) (h : s.dBits.toNat ≤ 7) (hc : s.dChunk.toNat < 2 ^ s.dBits.toNat)
    (full : 3 ≤ s.dBits.toNat) :
    (s.decAccumulate v).out.get? s.olen =
      some (BitVec.ofNat 8 ((s.dChunk.toNat * 2 ^ 5 + v.toNat) / 2 ^ (s.dBits.toNat + 5 - 8))) := by
  rw [State.decAccumulate, if_pos (by rw [decGrow_bits v h]; omega), decOutput_out, State.decGrow_olen, Memory.get?_set,
    if_pos rfl, decGrow_chunk v h hc, decGrow_bits v h, Nat.shiftRight_eq_div_pow]

/-- The chunk is the low bits of the text read so far (R105). -/
theorem decLoop_chunk {n : Nat} {s t : State} (h : decLoop n (decStart s) = .going t) :
    t.dChunk.toNat = digitsNumber (inputIndex s) n % 2 ^ (5 * n % 8) := by
  induction n generalizing t with
  | zero => cases h; simp [digitsNumber]
  | succ n ih =>
    obtain ⟨t, hx, rfl⟩ := decLoop_decStart_succ h
    obtain ⟨-, -, -, bits, -⟩ := decLoop_decStart hx
    have small : t.dChunk.toNat < 2 ^ t.dBits.toNat := by rw [ih hx, bits]; exact Nat.mod_lt _ (Nat.two_pow_pos _)
    have inner : 2 ^ (5 * (n + 1) % 8) ∣ 2 ^ (5 * n % 8 + 5) := Nat.pow_dvd_pow 2 (by omega)
    rw [State.nextUnit_dChunk, decAccumulate_chunk _ (by omega) small, bits, ih hx, digitsNumber,
      show (5 * n % 8 + 5) % 8 = 5 * (n + 1) % 8 by omega, ← Nat.mod_mod_of_dvd _ inner, held_mod, Nat.mod_mod_of_dvd _ inner]

/-- The symbol steps emit the successive eights of the text's bits (R109). -/
theorem decLoop_byte {n : Nat} {s t : State} (h : decLoop n (decStart s) = .going t) {j : Nat} (hj : j < 5 * n / 8) :
    t.out.get? j = some (BitVec.ofNat 8 (digitsNumber (inputIndex s) n / 2 ^ (5 * n - 8 * (j + 1)))) := by
  induction n generalizing t with
  | zero => omega
  | succ n ih =>
    obtain ⟨t, hx, rfl⟩ := decLoop_decStart_succ h
    obtain ⟨-, -, -, bits, count⟩ := decLoop_decStart hx
    rw [State.nextUnit_out]
    by_cases old : j < 5 * n / 8
    · obtain ⟨-, appends, -⟩ := decAccumulate_keeps t (inputIndex s n)
      rw [appends.below j (by omega), ih hx old, show 5 * (n + 1) - 8 * (j + 1) = 5 + (5 * n - 8 * (j + 1)) by omega,
        Nat.pow_add, ← Nat.div_div_eq_div_mul, digitsNumber_succ_div]
    · obtain rfl : j = t.olen := by omega
      have small : t.dChunk.toNat < 2 ^ t.dBits.toNat := by
        rw [decLoop_chunk hx, bits]; exact Nat.mod_lt _ (Nat.two_pow_pos _)
      rw [decAccumulate_byte _ (by omega) small (by omega), decLoop_chunk hx, bits, ofNat_held_div _ _ (by omega),
        ← digitsNumber, show 5 * n % 8 + 5 - 8 = 5 * (n + 1) - 8 * (t.olen + 1) by omega]

/-- Trailing bits that are all 0 leave the last byte as it is when they are merged into it (R107). -/
theorem decFinal_get? {s t : State} (h : s.decFinal = .going t) (hc : s.dChunk.toNat = 0) {j : Nat} {b : Byte}
    (hb : s.out.get? j = some b) : t.out.get? j = some b := by
  have merged : s.decMerge.out.get? j = some b := by
    rw [State.decMerge_out, Memory.get?_set, hc]
    split
    · rename_i here
      simp [State.outAt, ← here, hb]
    · exact hb
  unfold State.decFinal at h
  split at h
  · split at h <;> cases h
    exact merged
  · cases h
    exact hb

/-- DEC of a text whose trailing bits are 0 writes the successive eights of its bits (R109). -/
theorem execDec_bytes {s : State} (hv : s.valid = true) (hin : InputInAlphabet s) (hlen : s.len ≠ 1)
    (hzero : digitsNumber (inputIndex s) s.len % 2 ^ (5 * s.len % 8) = 0) :
    ∃ t, execDec s = .next t ∧ t.err = .none ∧ t.olen = byteLength s.len ∧ ∀ j, j < byteLength s.len →
      t.out.get? j = some (BitVec.ofNat 8 (digitsNumber (inputIndex s) s.len / 2 ^ (5 * s.len - 8 * (j + 1)))) := by
  obtain ⟨t, hx, ⟨herr, _, u, hloop, hfinal, _⟩ | ⟨_, u, hloop, hnone, hleft, _⟩ | ⟨m, _, hm, _, _, _, hmiss, _⟩⟩ :=
    execDec_outcomes s hv
  · obtain ⟨-, -, -, -, count⟩ := decLoop_decStart hloop
    obtain ⟨result, -⟩ := decFinal_going hfinal
    refine ⟨t, hx, herr, by rw [result]; exact count, fun j hj => ?_⟩
    exact decFinal_get? hfinal ((decLoop_chunk hloop).trans hzero) (decLoop_byte hloop hj)
  · obtain ⟨-, -, -, bits, count⟩ := decLoop_decStart hloop
    omega
  · have hit := hin m hm
    simp [hmiss] at hit

end Sys2Proof.Proofs
end

section
/-! SUPPORT. O36: the round trip (42_decode R110). -/

namespace Sys2Proof.Proofs

open Sys2Proof Sys2Proof.Machine

/-- Decoding undoes the count of encoding: fewer than eight pad bits are left over (R92, R108). -/
theorem byteLength_textLength (n : Nat) : byteLength (textLength n) = n ∧ 5 * textLength n % 8 = 5 * textLength n - 8 * n := by
  unfold byteLength textLength; omega

theorem paddedNumber_lt (s : State) : paddedNumber s < 2 ^ (5 * textLength s.len) := by
  calc paddedNumber s < 2 ^ (8 * s.len) * 2 ^ (5 * textLength s.len - 8 * s.len) :=
        Nat.mul_lt_mul_of_pos_right (digitsNumber_lt s.inAt s.len) (Nat.two_pow_pos _)
    _ = 2 ^ (5 * textLength s.len) := by rw [← Nat.pow_add]; congr 1; unfold textLength; omega

/-- The successive eights of the padded data are the data. -/
theorem paddedNumber_byte (s : State) {j : Nat} (hj : j < s.len) :
    BitVec.ofNat 8 (paddedNumber s / 2 ^ (5 * textLength s.len - 8 * (j + 1))) = s.inAt j := by
  rw [paddedNumber, show 5 * textLength s.len - 8 * (j + 1) =
    8 * (s.len - (j + 1)) + (5 * textLength s.len - 8 * s.len) by unfold textLength; omega, Nat.pow_add,
    Nat.mul_div_mul_right _ _ (Nat.two_pow_pos _), ofNat_digitsNumber_div s.inAt hj]

/-- Under the codec that encoded, DEC's lookup reads ENC's result as the successive fives of the padded data. -/
theorem revAt_of_encoded {s t u : State} (codec : HasCodec s) (henc : execEnc s = .next t) (hrev : u.rev = t.rev)
    (hin : ∀ j, j < t.olen → some (u.inAt j) = t.out.get? j) {j : Nat} (hj : j < textLength s.len) :
    u.revAt (u.inAt j) = some (BitVec.ofNat 5 (paddedNumber s / 2 ^ (5 * (textLength s.len - (j + 1))))) := by
  obtain ⟨hv, inverse⟩ := codec
  obtain ⟨count, symbols⟩ := execEnc_symbols hv henc
  obtain ⟨-, sameRev, -⟩ := execEnc_sameCodec henc
  have character := (hin j (by omega)).trans (symbols j hj)
  rw [Option.some.inj character]
  simp only [State.revAt, hrev, sameRev]
  exact inverse _

/-- Settles O36: ENC's symbols, as digits of base 32, spell the data's number with fewer than eight zero bits after it; DEC cuts
the digits of base 256 from that number, and those are the data's bytes. -/
theorem decodingTheEncodedTextGivesTheData : Obligations.DecodingTheEncodedTextGivesTheData := by
  intro s t u codec henc _ hrev hvalid hlen hin
  obtain ⟨-, -, sameValid⟩ := execEnc_sameCodec henc
  have length : u.len = textLength s.len := hlen.trans (execEnc_symbols codec.1 henc).1
  obtain ⟨back, pad⟩ := byteLength_textLength s.len
  have lookup : ∀ j, j < u.len → _ := fun j hj => revAt_of_encoded codec henc hrev hin (length ▸ hj)
  have number : digitsNumber (inputIndex u) u.len = paddedNumber s := by
    rw [length]
    exact digitsNumber_of_digits _ (paddedNumber_lt s) fun j hj => by rw [inputIndex, lookup j (length ▸ hj), Option.getD_some]
  have zero : digitsNumber (inputIndex u) u.len % 2 ^ (5 * u.len % 8) = 0 := by
    rw [number, length, pad, paddedNumber, Nat.mul_mod_left]
  have notOne : u.len ≠ 1 := by rw [length, textLength]; omega
  obtain ⟨v, hdec, herr, holen, bytes⟩ := execDec_bytes ((hvalid.trans sameValid).trans codec.1)
    (fun j hj => by rw [lookup j hj]; rfl) notOne zero
  rw [length, back] at holen
  rw [number, length, back] at bytes
  exact ⟨v, hdec, herr, holen, fun j hj => (bytes j hj).trans (congrArg some (paddedNumber_byte s hj))⟩

end Sys2Proof.Proofs
end

section
/-! SUPPORT. O23: the exact cause of every error of every command (60_exceptions R122). -/

namespace Sys2Proof.Proofs

open Sys2Proof Sys2Proof.Machine

/-! ## INITR and INITB -/

/-- The 32 characters of a built-in alphabet are distinct (10_state R13). -/
theorem romAt_injective (a : Builtin) : ∀ j k : Index, romAt a j = romAt a k → j = k := by
  cases a <;> decide +kernel

/-- INITR never raises: no character of the ROM's alphabet is at two positions (40_construct R73). -/
theorem execInitr_succeeds (a : Builtin) (s : State) :
    ∃ t, execInitr a s = .next t.setValid ∧
      PassDone (fun i => romAt a (BitVec.ofNat 5 i)) id 0 32 s.beginCommand.clearTables t := by
  rcases execInitr_cases a s with success | ⟨j, _, hj, ⟨k, hk, same⟩, _⟩
  · exact success
  · have index := congrArg BitVec.toNat (romAt_injective a _ _ same)
    rw [BitVec.toNat_ofNat, BitVec.toNat_ofNat] at index
    omega

theorem passFrame_olen {s t : State} (h : PassFrame s t) : t.olen = s.olen := by rw [h]

theorem alphabetDistinct_of_lt {s : State} (h : ∀ j k, j < k → k < 32 → s.inAt j ≠ s.inAt k) : AlphabetDistinct s := by
  intro i j hi hj same
  rcases Nat.lt_trichotomy i j with lt | eq | gt
  · exact absurd same (h i j lt hj)
  · exact eq
  · exact absurd same.symm (h j i gt hi)

/-- INITB succeeds on 32 distinct characters, and on anything else raises InvalidAlphabet (40_construct R75, R76). -/
theorem execInitb_outcomes (s : State) : ∃ t, execInitb s = .next t ∧ t.olen = 0 ∧
    ((t.err = .none ∧ s.len = 32 ∧ AlphabetDistinct s) ∨
      (t.err = .invalidAlphabet ∧ ¬ (s.len = 32 ∧ AlphabetDistinct s))) := by
  rcases execInitb_cases s with ⟨hlen, hx⟩ | ⟨hlen, t, hx, done⟩ | ⟨_, j, t, hj, ⟨k, hk, same⟩, _, hx⟩
  · exact ⟨_, hx, rfl, .inr ⟨rfl, fun h => hlen h.1⟩⟩
  · have distinct := alphabetDistinct_of_lt fun j k lt hk => done.distinct j k (Nat.zero_le j) lt (by omega)
    exact ⟨_, hx, passFrame_olen done.frame, .inl ⟨passFrame_err done.frame, hlen, distinct⟩⟩
  · refine ⟨_, hx, rfl, .inr ⟨rfl, fun ⟨_, distinct⟩ => ?_⟩⟩
    exact absurd (distinct k j (by omega) hj same) (by omega)

/-! ## ENC -/

/-- ENC raises NoCodec without a codec, and with one appends its result and succeeds (41_encode R86). -/
theorem execEnc_outcomes (s : State) : ∃ t, execEnc s = .next t ∧
    ((s.valid = false ∧ t.err = .noCodec ∧ t.olen = 0) ∨
      (s.valid = true ∧ t.err = .none ∧ Appends s.beginCommand.startEnc t)) := by
  rcases execEnc_cases s with ⟨hv, hx⟩ | ⟨hv, hx⟩
  · exact ⟨_, hx, .inl ⟨hv, rfl, rfl⟩⟩
  · obtain ⟨loopKeeps, loopAppends, -⟩ := encLoop_keeps s.len s.beginCommand.startEnc
    obtain ⟨finalKeeps, finalAppends, -⟩ := encFinal_keeps (encLoop s.len s.beginCommand.startEnc)
    refine ⟨_, hx, .inr ⟨hv, ?_, loopAppends.trans finalAppends⟩⟩
    rw [loopKeeps.trans finalKeeps]
    rfl

/-! ## DEC -/

theorem exists_miss_iff_not_inputInAlphabet (s : State) :
    (∃ i, i < s.len ∧ s.revAt (s.inAt i) = none) ↔ ¬ InputInAlphabet s := by
  simp [InputInAlphabet]

theorem inputInAlphabet_iff_of_len_eq_one {s : State} (h : s.len = 1) :
    InputInAlphabet s ↔ s.revAt (s.inAt 0) ≠ none := by
  simp [InputInAlphabet, h, Option.isSome_iff_ne_none]

/-- The end of the input goes on only when a byte is there for the leftover bits, or no bit is left (42_decode R106). -/
theorem decFinal_going_room {s t : State} (h : s.decFinal = .going t) : s.dBits.toNat = 0 ∨ s.olen ≠ 0 := by
  by_contra hnot
  obtain ⟨hleft, hnone⟩ := not_or.1 hnot
  rw [State.decFinal, if_pos (Nat.pos_of_ne_zero hleft), if_pos (not_not.1 hnone)] at h
  cases h

/-- The cause of each outcome of DEC. A single symbol is the only text whose five bits make no byte and leave some over. -/
theorem execDec_causes (s : State) : ∃ t, execDec s = .next t ∧
    ((t.err = .noCodec ∧ s.valid = false) ∨
      (t.err = .invalidCharacter ∧ s.valid = true ∧ ¬ InputInAlphabet s) ∨
      (t.err = .invalidInput ∧ s.valid = true ∧ InputInAlphabet s ∧ s.len = 1) ∨
      (t.err = .none ∧ s.valid = true ∧ InputInAlphabet s ∧ s.len ≠ 1)) := by
  rcases execDec_cases s with ⟨hv, hx⟩ | ⟨hv, _⟩
  · exact ⟨_, hx, .inl ⟨rfl, hv⟩⟩
  obtain ⟨t, hx, ⟨herr, hin, u, hloop, hfinal, _⟩ | ⟨hin, u, hloop, hnone, hleft, rfl, _⟩ | ⟨m, u, hm, _, _, _, hmiss, _, rfl⟩⟩ :=
    execDec_outcomes s hv
  · obtain ⟨-, -, -, bits, count⟩ := decLoop_decStart hloop
    have room := decFinal_going_room hfinal
    exact ⟨t, hx, .inr (.inr (.inr ⟨herr, hv, hin, by omega⟩))⟩
  · obtain ⟨-, -, -, bits, count⟩ := decLoop_decStart hloop
    exact ⟨_, hx, .inr (.inr (.inl ⟨rfl, hv, hin, by omega⟩))⟩
  · exact ⟨_, hx, .inr (.inl ⟨rfl, hv, (exists_miss_iff_not_inputInAlphabet s).1 ⟨m, hm, hmiss⟩⟩)⟩

/-- The outcomes of DEC exclude each other, so that each has its cause exactly. -/
theorem execDec_err_iff (s : State) : ∃ t, execDec s = .next t ∧
    (t.err = .noCodec ↔ s.valid = false) ∧
    (t.err = .invalidCharacter ↔ s.valid = true ∧ ∃ i, i < s.len ∧ s.revAt (s.inAt i) = none) ∧
    (t.err = .invalidInput ↔ s.valid = true ∧ s.len = 1 ∧ s.revAt (s.inAt 0) ≠ none) ∧
    (t.err = .none ↔ s.valid = true ∧ InputInAlphabet s ∧ s.len ≠ 1) := by
  obtain ⟨t, hx, causes⟩ := execDec_causes s
  have single : (s.len = 1 ∧ s.revAt (s.inAt 0) ≠ none) ↔ s.len = 1 ∧ InputInAlphabet s :=
    and_congr_right fun h => (inputInAlphabet_iff_of_len_eq_one h).symm
  rw [exists_miss_iff_not_inputInAlphabet, single]
  refine ⟨t, hx, ?_⟩
  rcases causes with ⟨herr, hv⟩ | ⟨herr, hv, hout⟩ | ⟨herr, hv, hin, hlen⟩ | ⟨herr, hv, hin, hlen⟩
  · simp [herr, hv]
  · simp [herr, hv, hout]
  · simp [herr, hv, hin, hlen]
  · simp [herr, hv, hin, hlen]

/-- Settles O23: each command's outcomes come with causes that exclude each other, so that each is an equivalence. -/
theorem errorCausesAreExact : Obligations.ErrorCausesAreExact := by
  intro s
  refine ⟨fun a => ?_, ?_, ?_, execDec_err_iff s, fun w rest hw => ?_⟩
  · obtain ⟨t, hx, done⟩ := execInitr_succeeds a s
    exact ⟨_, hx, passFrame_err done.frame⟩
  · obtain ⟨t, hx, -, ⟨herr, cause⟩ | ⟨herr, cause⟩⟩ := execInitb_outcomes s
    · exact ⟨t, hx, iff_of_true herr cause, iff_of_false (by simp [herr]) (not_not.2 cause)⟩
    · exact ⟨t, hx, iff_of_false (by simp [herr]) cause, iff_of_true herr cause⟩
  · obtain ⟨t, hx, ⟨hv, herr, _⟩ | ⟨hv, herr, _⟩⟩ := execEnc_outcomes s
    · exact ⟨t, hx, by simp [herr, hv], by simp [herr, hv]⟩
    · exact ⟨t, hx, by simp [herr, hv], by simp [herr, hv]⟩
  · obtain ⟨why, hd⟩ := decode_error_of_not_mem_legalWords hw
    exact ⟨_, step_issue_of_decode_error s rest hd, rfl⟩

end Sys2Proof.Proofs
end

section
/-! SUPPORT. O25: what every command leaves in OUT and OLEN, in success and in error (60_exceptions R120). -/

namespace Sys2Proof.Proofs

open Sys2Proof Sys2Proof.Machine

/-- The two ways a command may end: its result is written, or one error leaves none (60_exceptions R120). -/
def EndsOneOfTwoWays (t : State) : Prop :=
  (t.err = .none ∧ ∀ j, j < t.olen → (t.out.get? j).isSome = true) ∨ (t.err ≠ .none ∧ t.olen = 0)

/-- With OLEN at 0 there is no result to write, and raising leaves it there (R124). -/
theorem endsOneOfTwoWays_of_olen_eq_zero {t : State} (h : t.olen = 0) : EndsOneOfTwoWays t := by
  by_cases herr : t.err = .none
  · exact .inl ⟨herr, fun j hj => by omega⟩
  · exact .inr ⟨herr, h⟩

/-- A result that grew from nothing is written throughout. -/
theorem written_of_appends {s t : State} (h : Appends s t) (hs : s.olen = 0) {j : Nat} (hj : j < t.olen) :
    (t.out.get? j).isSome = true :=
  h.written j (by omega) hj

/-- Merging the leftover bits leaves no unit of the result unwritten (42_decode R107). -/
theorem written_of_decFinal_going {s t : State} (h : s.decFinal = .going t)
    (hs : ∀ j, j < s.olen → (s.out.get? j).isSome = true) {j : Nat} (hj : j < t.olen) : (t.out.get? j).isSome = true := by
  obtain ⟨keeps, same | ⟨_, v, merged⟩⟩ := decFinal_going h
  all_goals have old : j < s.olen := by rw [keeps] at hj; exact hj
  · rw [same]
    exact hs j old
  · rw [merged, Memory.get?_set]
    split
    · rfl
    · exact hs j old

theorem execDec_endsOneOfTwoWays (s : State) : ∃ t, execDec s = .next t ∧ EndsOneOfTwoWays t := by
  rcases execDec_cases s with ⟨_, hx⟩ | ⟨hv, _⟩
  · exact ⟨_, hx, endsOneOfTwoWays_of_olen_eq_zero rfl⟩
  obtain ⟨t, hx, ⟨herr, _, u, _, hfinal, _, appends⟩ | ⟨_, u, _, _, _, rfl, _⟩ | ⟨_, u, _, _, _, _, _, _, rfl⟩⟩ :=
    execDec_outcomes s hv
  · exact ⟨t, hx, .inl ⟨herr, fun j => written_of_decFinal_going hfinal fun k => written_of_appends appends rfl⟩⟩
  · exact ⟨_, hx, endsOneOfTwoWays_of_olen_eq_zero rfl⟩
  · exact ⟨_, hx, endsOneOfTwoWays_of_olen_eq_zero rfl⟩

/-- Settles O25: a construction command leaves OLEN at 0; ENC and DEC append their result to an empty one, or raise. -/
theorem everyCommandEndsOneOfTwoWays : Obligations.EveryCommandEndsOneOfTwoWays := by
  intro i s
  cases i with
  | initr a =>
    obtain ⟨t, hx, done⟩ := execInitr_succeeds a s
    exact ⟨_, hx, endsOneOfTwoWays_of_olen_eq_zero (passFrame_olen done.frame)⟩
  | initb =>
    obtain ⟨t, hx, holen, _⟩ := execInitb_outcomes s
    exact ⟨t, hx, endsOneOfTwoWays_of_olen_eq_zero holen⟩
  | enc =>
    obtain ⟨t, hx, ⟨_, _, holen⟩ | ⟨_, herr, appends⟩⟩ := execEnc_outcomes s
    · exact ⟨t, hx, endsOneOfTwoWays_of_olen_eq_zero holen⟩
    · exact ⟨t, hx, .inl ⟨herr, fun j => written_of_appends appends rfl⟩⟩
  | dec => exact execDec_endsOneOfTwoWays s

end Sys2Proof.Proofs
end

section
/-! SUPPORT. O3, O1, O2, O4: the words of the commands and of the listing's lines (30_encoding R50 to R60). -/

namespace Sys2Proof.Proofs

open Sys2Proof Sys2Proof.Machine

/-- The word of a command decodes to it. -/
theorem decode_encode (i : Instr) : decode (encode i) = .ok i := by
  cases i with
  | initr a => cases a <;> rfl
  | initb => rfl
  | enc => rfl
  | dec => rfl

/-- Settles O3: a command's word matches the row of the command, and a word that matches a row is the word of its command. -/
theorem decodeAndEncodeAgree : Obligations.DecodeAndEncodeAgree := ⟨decode_encode, fun _ _ => encode_of_decode⟩

/-- Settles O1: each word is one that the opcode map writes out. -/
theorem wordsOfTheOpcodeMapDecode : Obligations.WordsOfTheOpcodeMapDecode :=
  ⟨rfl, rfl, rfl, rfl, rfl, rfl, rfl, rfl, rfl, rfl⟩

theorem exists_encode_of_mem_legalWords : ∀ {w : Byte}, w ∈ legalWords → ∃ i, encode i = w := by
  simp only [legalWords, List.mem_cons, List.not_mem_nil, or_false]
  rintro w (rfl | rfl | rfl | rfl | rfl | rfl | rfl)
  exacts [⟨.initr .default, rfl⟩, ⟨.initr .rfc4648, rfl⟩, ⟨.initr .exthex, rfl⟩, ⟨.initr .natarea, rfl⟩, ⟨.initb, rfl⟩,
    ⟨.enc, rfl⟩, ⟨.dec, rfl⟩]

/-- The words that decode are the words of the commands, and those are the seven legal ones. -/
theorem decodes_iff_mem_legalWords (w : Byte) : (∃ i, decode w = .ok i) ↔ w ∈ legalWords := by
  constructor
  · rintro ⟨i, h⟩
    exact encode_of_decode h ▸ encode_mem_legalWords i
  · intro h
    obtain ⟨i, rfl⟩ := exists_encode_of_mem_legalWords h
    exact ⟨i, decode_encode i⟩

/-- Two rows of the opcode map that match one word ask for the same `OPC` (R52). -/
theorem opcodeRow_unique {w : Byte} {r₁ r₂ : OpcodeRow} (h₁ : r₁ ∈ opcodeRows) (h₂ : r₂ ∈ opcodeRows)
    (m₁ : r₁.matchesWord w = true) (m₂ : r₂.matchesWord w = true) : r₁ = r₂ := by
  have masks : ∀ r ∈ opcodeRows, r.mask &&& 0xF0 = 0xF0 ∧ r.pattern &&& 0xF0 = r.pattern := by decide
  have opc : ∀ r ∈ opcodeRows, r.matchesWord w = true → w &&& 0xF0 = r.pattern := by
    intro r hr hm
    obtain ⟨mask, pattern⟩ := masks r hr
    rw [← mask, ← BitVec.and_assoc, of_decide_eq_true hm, pattern]
  have patterns : ∀ r₁ ∈ opcodeRows, ∀ r₂ ∈ opcodeRows, r₁.pattern = r₂.pattern → r₁ = r₂ := by decide
  exact patterns r₁ h₁ r₂ h₂ ((opc r₁ h₁ m₁).symm.trans (opc r₂ h₂ m₂))

/-- Settles O2: a word decodes exactly when it is a command's, and its operation code fixes the row. -/
theorem exactlySevenWordsDecode : Obligations.ExactlySevenWordsDecode := fun w =>
  ⟨decodes_iff_mem_legalWords w, wellFormedWord_iff_mem_legalWords w, fun _ h₁ _ h₂ => opcodeRow_unique h₁ h₂⟩

/-- Settles O4: a command line has its command's word, a directive no command. -/
theorem listingLinesAssemble : Obligations.ListingLinesAssemble :=
  ⟨rfl, fun _ => rfl, rfl, rfl, rfl, rfl, rfl, rfl, rfl, fun _ => rfl, fun _ => rfl, rfl, rfl⟩

end Sys2Proof.Proofs
end

section
/-! SUPPORT. O14 to O21: the tables that INITR and INITB build, and what they leave alone (40_construct). -/

namespace Sys2Proof.Proofs

open Sys2Proof Sys2Proof.Machine

/-- A command ends in one state. -/
theorem next_unique {o : Host.Outcome State Fault Refusal} {t u : State} (h : o = .next t) (k : o = .next u) : t = u :=
  Host.Outcome.next.inj (h.symm.trans k)

/-! ## The tables -/

/-- Settles O14: the ROM rows list no character twice. -/
theorem builtinAlphabetsAreDistinct : Obligations.BuiltinAlphabetsAreDistinct := romAt_injective

/-- A whole pass over cleared tables leaves the tables of its characters (R70). -/
theorem tablesFrom_of_passDone {char : Nat → Byte} {tick : State → State} {s u : State}
    (done : PassDone char tick 0 32 s.clearTables u) : TablesFrom char u.setValid := by
  refine ⟨fun k => ?_, fun k => ?_, fun c absent => ?_⟩
  · rw [State.setValid_fwdAt, done.fwd k, if_pos (by omega)]
  · rw [State.setValid_revAt, done.hit k.toNat (Nat.zero_le _) (by omega), BitVec.ofNat_toNat, BitVec.setWidth_eq]
  · rw [State.setValid_revAt, done.other c, State.revAt_clearTables]
    intro j _ hj
    have char_ne := absent (BitVec.ofNat 5 j)
    rwa [BitVec.toNat_ofNat, Nat.mod_eq_of_lt (by omega)] at char_ne

/-- The tables of one alphabet are the same however they were built. -/
theorem tablesFrom_agree {char char' : Nat → Byte} {t u : State} (ht : TablesFrom char t) (hu : TablesFrom char' u)
    (same : ∀ k : Index, char k.toNat = char' k.toNat) :
    (∀ k, t.fwdAt k = u.fwdAt k) ∧ ∀ c, t.revAt c = u.revAt c := by
  obtain ⟨fwd, hit, miss⟩ := ht
  obtain ⟨fwd', hit', miss'⟩ := hu
  refine ⟨fun k => by rw [fwd, fwd', same], fun c => ?_⟩
  by_cases h : ∃ k : Index, char k.toNat = c
  · obtain ⟨k, rfl⟩ := h
    rw [hit, same, hit']
  · have absent : ∀ k : Index, char k.toNat ≠ c := fun k hk => h ⟨k, hk⟩
    rw [miss c absent, miss' c fun k => same k ▸ absent k]

/-- Settles O15: INITR never raises, and its pass leaves the tables of the ROM row. -/
theorem initrBuildsTheBuiltinTables : Obligations.InitrBuildsTheBuiltinTables := by
  intro a s
  obtain ⟨u, hx, done⟩ := execInitr_succeeds a s
  exact ⟨_, hx, tablesFrom_of_passDone done, rfl, passFrame_err done.frame, passFrame_olen done.frame⟩

/-- Settles O17: with 32 distinct characters neither check of INITB raises, and its pass leaves their tables. -/
theorem initbBuildsTheTablesOfTheBuffer : Obligations.InitbBuildsTheTablesOfTheBuffer := by
  intro s hlen distinct
  rcases execInitb_cases s with ⟨wrong, _⟩ | ⟨_, u, hx, done⟩ | ⟨_, j, _, hj, ⟨k, hk, same⟩, _⟩
  · exact absurd hlen wrong
  · exact ⟨_, hx, tablesFrom_of_passDone done, rfl, passFrame_err done.frame, passFrame_olen done.frame⟩
  · exact absurd (distinct k j (by omega) hj same) (by omega)

theorem status_of_success {t : State} (valid : t.valid = true) (err : t.err = .none) : t.status = 0x01 := by
  rw [State.status, valid, err]; rfl

theorem alphabetDistinct_of_builtin {a : Builtin} {s : State} (h : ∀ k : Index, s.inAt k.toNat = romAt a k) :
    AlphabetDistinct s := by
  intro i j hi hj same
  have read : ∀ n, n < 32 → s.inAt n = romAt a (BitVec.ofNat 5 n) := by
    intro n hn
    rw [← h, BitVec.toNat_ofNat, Nat.mod_eq_of_lt hn]
  rw [read i hi, read j hj] at same
  have index := congrArg BitVec.toNat (romAt_injective a _ _ same)
  rwa [BitVec.toNat_ofNat, BitVec.toNat_ofNat, Nat.mod_eq_of_lt hi, Nat.mod_eq_of_lt hj] at index

/-- Settles O21: both commands leave the tables of the same 32 characters. -/
theorem initbOnABuiltinAlphabetAgreesWithInitr : Obligations.InitbOnABuiltinAlphabetAgreesWithInitr := by
  intro a s hlen chars
  obtain ⟨t, hb, tables, valid, err, -⟩ := initbBuildsTheTablesOfTheBuffer s hlen (alphabetDistinct_of_builtin chars)
  obtain ⟨u, hr, tables', valid', err', -⟩ := initrBuildsTheBuiltinTables a s
  obtain ⟨fwd, rev⟩ := tablesFrom_agree tables tables' fun k => by rw [chars, BitVec.ofNat_toNat, BitVec.setWidth_eq]
  exact ⟨t, u, hb, hr, fwd, rev, status_of_success valid err, status_of_success valid' err'⟩

/-! ## The errors of INITB -/

/-- Settles O18: the length check raises before the pass begins. -/
theorem initbRejectsAWrongLength : Obligations.InitbRejectsAWrongLength := by
  intro s hlen
  rcases execInitb_cases s with ⟨_, hx⟩ | ⟨h, _⟩ | ⟨h, _⟩
  · exact hx
  · exact absurd h hlen
  · exact absurd h hlen

/-- Settles O19: the pass raises at a position whose character stands before it, the characters before that position being
distinct; only the least repeated position is one. -/
theorem initbRejectsARepeatedCharacter : Obligations.InitbRejectsARepeatedCharacter := by
  intro s i j hlen hi hj same least
  rcases execInitb_cases s with ⟨wrong, _⟩ | ⟨_, u, _, done⟩ | ⟨_, m, u, _, ⟨k, hk, same'⟩, done, hx⟩
  · exact absurd hlen wrong
  · exact absurd same.symm (done.distinct j i (Nat.zero_le j) hj (by omega))
  · have position : m = i := by
      rcases Nat.lt_trichotomy m i with lt | eq | gt
      · exact absurd same'.symm (least m k lt hk)
      · exact eq
      · exact absurd same.symm (done.distinct j i (Nat.zero_le j) hj (by omega))
    refine ⟨_, hx, rfl, rfl, rfl, ?_⟩
    rw [State.raiseInvalidAlphabet_ipos, done.counted rfl, position]
    exact Nat.zero_add i

/-! ## What the construction commands leave alone -/

/-- What INITR and INITB leave alone: all but the tables, STATUS, OLEN, IPOS and the counter draws (R70). -/
def ConstructKeeps (s t : State) : Prop :=
  t = { s with
    fwd := t.fwd, rev := t.rev, valid := t.valid, err := t.err, olen := t.olen, ipos := t.ipos, draws := s.draws + 1 }

/-- A pass from where the command began leaves alone what a construction does, however it ends. -/
theorem constructKeeps_of_passFrame {s u : State} {p : Nat}
    (frame : PassFrame (State.clearTables { s.beginCommand with ipos := p }) u) :
    ConstructKeeps s u.setValid ∧ ConstructKeeps s u.raiseInvalidAlphabet := by
  unfold ConstructKeeps
  rw [frame]
  exact ⟨rfl, rfl⟩

theorem execInitr_keeps {a : Builtin} {s t : State} (h : execInitr a s = .next t) : ConstructKeeps s t ∧ t.ipos = s.ipos := by
  obtain ⟨u, hx, done⟩ := execInitr_succeeds a s
  obtain rfl := next_unique hx h
  exact ⟨(constructKeeps_of_passFrame done.frame).1, done.uncounted rfl⟩

theorem execInitb_keeps {s t : State} (h : execInitb s = .next t) : ConstructKeeps s t := by
  rcases execInitb_cases s with ⟨_, hx⟩ | ⟨_, u, hx, done⟩ | ⟨_, _, u, _, _, done, hx⟩ <;> rw [hx] at h <;> cases h
  · rfl
  · exact (constructKeeps_of_passFrame done.frame).1
  · exact (constructKeeps_of_passFrame done.frame).2

/-- Settles O16: INITR is a construction that has no position in IN to count. -/
theorem initrFrame : Obligations.InitrFrame := by
  intro a s t h
  obtain ⟨frame, position⟩ := execInitr_keeps h
  exact ⟨by unfold ConstructKeeps at frame; rwa [position] at frame, fun i => by rw [frame]; rfl, fun j => by rw [frame]⟩

/-- Settles O20: INITB leaves alone what a construction does. -/
theorem initbFrame : Obligations.InitbFrame := by
  intro s t h
  have frame := execInitb_keeps h
  exact ⟨frame, fun i => by rw [frame]; rfl, fun j => by rw [frame]⟩

end Sys2Proof.Proofs
end

section
/-! SUPPORT. O24, O26, O27, O29, O30: what ENC leaves, counted and framed (41_encode). -/

namespace Sys2Proof.Proofs

open Sys2Proof Sys2Proof.Machine

/-- Settles O24: raising NoCodec is all that ENC and DEC do without a codec. -/
theorem noCodecIsCheckedFirst : Obligations.NoCodecIsCheckedFirst :=
  fun _ hv _ hi => exec_enc_or_dec_of_not_valid hv hi

/-! ## The byte step -/

/-- The top five of the bits held are the carry above the top bits of the byte. -/
theorem first_five (x : Nat) (b : Byte) {c : Nat} (h : c ≤ 4) :
    (x * 256 + b.toNat) / 2 ^ (c + 3) = x * 2 ^ (5 - c) + b.toNat / 2 ^ (c + 3) := by
  have split : 256 = 2 ^ (5 - c) * 2 ^ (c + 3) := by rw [← Nat.pow_add, show 5 - c + (c + 3) = 8 by omega]
  rw [split, ← Nat.mul_assoc, Nat.mul_comm _ (2 ^ (c + 3)), Nat.mul_add_div (Nat.two_pow_pos _)]

/-- The next five are bits of the byte alone. -/
theorem second_five (x : Nat) (b : Byte) {c : Nat} (h2 : 2 ≤ c) (h4 : c ≤ 4) :
    BitVec.ofNat 5 ((x * 256 + b.toNat) / 2 ^ (c - 2)) = BitVec.ofNat 5 (b.toNat / 2 ^ (c - 2) % 32) := by
  rw [← ofNat_second_five x c b h2 h4, Nat.shiftRight_eq_div_pow, show c + 3 = c - 2 + 5 by omega, Nat.pow_add,
    Nat.mod_mul_right_div_self]

/-- Settles O26: the byte step's symbols are the successive fives of carry and byte, and the counts those of their bits. -/
theorem encByteStepRegroups : Obligations.EncByteStepRegroups := by
  intro s b h4 _
  dsimp only
  obtain ⟨bits, count, carry⟩ := encByte_counts s b h4
  have first := encByte_symbol b h4 (i := 0) (by omega)
  rw [show s.eBits.toNat + 8 - 5 * (0 + 1) = s.eBits.toNat + 3 by omega, first_five _ b h4] at first
  refine ⟨by omega, carry, first, fun _ => by omega, fun h2 => ⟨by omega, ?_⟩⟩
  rw [encByte_symbol b h4 (i := 1) (by omega), show s.eBits.toNat + 8 - 5 * (1 + 1) = s.eBits.toNat - 2 by omega,
    second_five _ b h2 h4]

/-! ## The whole command -/

/-- What ENC with a codec leaves: the input's symbols appended to an empty result, and the last carry (R86 to R93). -/
structure Encoded (s t : State) : Prop where
  keeps : EncKeeps (encStart s) t
  appends : Appends (encStart s) t
  bits : t.eBits.toNat = 8 * s.len % 5
  carry : t.eCarry.toNat < 2 ^ t.eBits.toNat
  count : t.olen = textLength s.len

theorem Encoded.err {s t : State} (h : Encoded s t) : t.err = .none := by rw [h.keeps]; rfl

theorem execEnc_encoded {s : State} (hv : s.valid = true) :
    execEnc s = .next (encLoop s.len (encStart s)).encFinal ∧ Encoded s (encLoop s.len (encStart s)).encFinal := by
  rcases execEnc_cases s with ⟨hno, _⟩ | ⟨_, hx⟩
  · simp [hv] at hno
  obtain ⟨loopKeeps, loopAppends, -⟩ := encLoop_keeps s.len (encStart s)
  obtain ⟨finalKeeps, finalAppends, finalCarry, finalBits, -⟩ := encFinal_keeps (encLoop s.len (encStart s))
  obtain ⟨-, -, -, bits, -⟩ := encLoop_encStart s.len s
  refine ⟨hx, loopKeeps.trans finalKeeps, loopAppends.trans finalAppends, finalBits ▸ bits, ?_, (execEnc_symbols hv hx).1⟩
  rw [finalCarry, finalBits, encLoop_carry, bits]
  exact Nat.mod_lt _ (Nat.two_pow_pos _)

/-- The two ways ENC can end. -/
theorem execEnc_next {s t : State} (h : execEnc s = .next t) :
    (s.valid = false ∧ t = s.beginCommand.raise .noCodec) ∨ (s.valid = true ∧ Encoded s t) := by
  cases hv : s.valid with
  | false =>
    have hx := exec_enc_or_dec_of_not_valid hv (i := .enc) (by decide)
    exact .inl ⟨rfl, next_unique h hx⟩
  | true =>
    obtain ⟨hx, encoded⟩ := execEnc_encoded hv
    exact .inr ⟨rfl, next_unique hx h ▸ encoded⟩

/-- Settles O27: the byte steps count the whole groups of the input's bits, and the result has one more for bits left over. -/
theorem encLengthLaw : Obligations.EncLengthLaw := by
  intro s hv
  obtain ⟨hx, encoded⟩ := execEnc_encoded hv
  obtain ⟨-, -, -, -, whole⟩ := encLoop_encStart s.len s
  have count := encoded.count
  have bits := encoded.bits
  refine ⟨_, hx, encoded.err, count, whole, ?_⟩
  rw [count, bits, textLength]
  obtain h | h | h | h | h : s.len % 5 = 0 ∨ s.len % 5 = 1 ∨ s.len % 5 = 2 ∨ s.len % 5 = 3 ∨ s.len % 5 = 4 := by omega
  all_goals
    simp only [h, List.getElem?_cons_zero, List.getElem?_cons_succ, Option.some.injEq, Prod.mk.injEq]
    omega

/-- Settles O29: every unit of the result is a character of FWD, and the codec that inverts FWD is kept. -/
theorem encResultIsInTheAlphabet : Obligations.EncResultIsInTheAlphabet := by
  intro s codec
  obtain ⟨hv, inverse⟩ := codec
  obtain ⟨hx, encoded⟩ := execEnc_encoded hv
  obtain ⟨sameFwd, sameRev, -⟩ := execEnc_sameCodec hx
  refine ⟨_, hx, encoded.err, fun j hj => ⟨BitVec.ofNat 5 (paddedNumber s / 2 ^ (5 * (textLength s.len - (j + 1)))), ?_⟩⟩
  simp only [State.fwdAt, State.revAt, sameFwd, sameRev]
  exact ⟨(execEnc_symbols hv hx).2 j (encoded.count ▸ hj), inverse _⟩

/-- Settles O30: ENC either raises NoCodec or appends its result from `OUT[0]` on. -/
theorem encFrame : Obligations.EncFrame := by
  intro s t h
  rcases execEnc_next h with ⟨_, rfl⟩ | ⟨hv, encoded⟩
  · exact ⟨rfl, fun _ => rfl, fun _ _ => rfl⟩
  · have frame := encoded.keeps
    refine ⟨by rw [frame]; rfl, fun i => by rw [frame]; rfl, fun j outside => encoded.appends.above j ?_⟩
    rcases outside with hno | above
    · simp [hv] at hno
    · rwa [encoded.count]

end Sys2Proof.Proofs
end

section
/-! SUPPORT. O31, O34, O35: what DEC leaves, counted and framed (42_decode). -/

namespace Sys2Proof.Proofs

open Sys2Proof Sys2Proof.Machine

/-- How far DEC with a codec came: `m` symbols are taken in, after which it changes at most OLEN, ERR, ERRCHAR and the last
byte written (R101 to R107). -/
structure Decoded (s u t : State) (m : Nat) : Prop where
  room : m ≤ s.len
  loop : decLoop m (decStart s) = .going u
  keeps : DecKeeps (decStart s) u
  appends : Appends (decStart s) u
  frame : t = { u with out := t.out, olen := t.olen, err := t.err, errchar := t.errchar }
  last : t.out = u.out ∨ 0 < u.olen ∧ ∃ v, t.out = u.out.set (u.olen - 1) v
  count : t.olen ≤ u.olen
  outcome : (t.err = .invalidCharacter ∧ s.revAt t.errchar = none) ∨
    (t.err = .invalidInput ∧ t.errchar = s.errchar) ∨ (t.err = .none ∧ t.errchar = s.errchar)

/-- The two ways DEC can end: NoCodec, or the fold as far as it goes. -/
theorem execDec_next {s t : State} (h : execDec s = .next t) :
    (s.valid = false ∧ t = s.beginCommand.raise .noCodec) ∨ (s.valid = true ∧ ∃ u m, Decoded s u t m) := by
  rcases execDec_cases s with ⟨hv, hx⟩ | ⟨hv, _⟩
  · exact .inl ⟨hv, next_unique h hx⟩
  obtain ⟨t', hx, outcomes⟩ := execDec_outcomes s hv
  obtain rfl := next_unique hx h
  refine .inr ⟨hv, ?_⟩
  rcases outcomes with ⟨herr, _, u, hloop, hfinal, keeps, appends⟩ | ⟨_, u, hloop, _, _, rfl, keeps, appends⟩ |
    ⟨m, u, hm, hloop, keeps, appends, hmiss, _, rfl⟩
  · obtain ⟨merge, last⟩ := decFinal_going hfinal
    have olen : t'.olen = u.olen := by rw [merge]
    have errchar : t'.errchar = s.errchar := by rw [merge, keeps]; rfl
    exact ⟨u, s.len, Nat.le_refl _, hloop, keeps, appends, by rw [merge], last, by omega, .inr (.inr ⟨herr, errchar⟩)⟩
  · have errchar : u.errchar = s.errchar := by rw [keeps]; rfl
    exact ⟨u, s.len, Nat.le_refl _, hloop, keeps, appends, rfl, .inl rfl, Nat.zero_le _, .inr (.inl ⟨rfl, errchar⟩)⟩
  · exact ⟨u, m, by omega, hloop, keeps, appends, rfl, .inl rfl, Nat.zero_le _, .inl ⟨rfl, hmiss⟩⟩

/-- The result of DEC is no longer than its length law says. -/
theorem Decoded.count_le {s u t : State} {m : Nat} (h : Decoded s u t m) : u.olen ≤ byteLength s.len := by
  obtain ⟨-, -, -, -, count⟩ := decLoop_decStart h.loop
  have room := h.room
  rw [count, byteLength]
  omega

theorem Decoded.above {s u t : State} {m j : Nat} (h : Decoded s u t m) (hj : byteLength s.len ≤ j) :
    t.out.get? j = s.out.get? j := by
  have count := h.count_le
  have outside : u.out.get? j = s.out.get? j := h.appends.above j (by omega)
  rcases h.last with same | ⟨_, v, merged⟩
  · rw [same, outside]
  · rw [merged, Memory.get?_set_ne _ _ (by omega), outside]

/-- Settles O35: DEC either raises NoCodec or writes its result from `OUT[0]` on, and ERRCHAR with InvalidCharacter. -/
theorem decFrame : Obligations.DecFrame := by
  intro s t h
  rcases execDec_next h with ⟨_, rfl⟩ | ⟨hv, u, m, decoded⟩
  · exact ⟨rfl, fun _ => rfl, fun _ => rfl, fun _ _ => rfl⟩
  · have keeps := decoded.keeps
    have frame := decoded.frame
    refine ⟨by rw [frame, keeps]; rfl, fun herr => ?_, fun i => by rw [frame, keeps]; rfl, fun j outside => ?_⟩
    · rcases decoded.outcome with ⟨raised, _⟩ | ⟨_, same⟩ | ⟨_, same⟩
      · exact absurd raised herr
      · exact same
      · exact same
    · exact decoded.above (outside.resolve_left (by simp [hv]))

/-- DEC of an input in the alphabet that is not one character takes every symbol in and raises nothing (R106). -/
theorem execDec_succeeds {s : State} (hv : s.valid = true) (hin : InputInAlphabet s) (hlen : s.len ≠ 1) :
    ∃ t u, execDec s = .next t ∧ t.err = .none ∧ decLoop s.len (decStart s) = .going u ∧ u.decFinal = .going t := by
  obtain ⟨t, hx, ⟨herr, _, u, hloop, hfinal, _⟩ | ⟨_, u, hloop, hnone, hleft, _⟩ | ⟨m, _, hm, _, _, _, hmiss, _⟩⟩ :=
    execDec_outcomes s hv
  · exact ⟨t, u, hx, herr, hloop, hfinal⟩
  · obtain ⟨-, -, -, bits, count⟩ := decLoop_decStart hloop
    omega
  · have hit := hin m hm
    simp [hmiss] at hit

/-- Settles O34: the causes of DEC's outcomes leave InvalidInput for one character, and success for any other number. -/
theorem decRejectsOneCharacter : Obligations.DecRejectsOneCharacter := by
  intro s hv hin
  obtain ⟨t, hx, causes⟩ := execDec_causes s
  obtain ⟨_, kept, _⟩ := decFrame s t hx
  obtain ⟨t', hx', ends⟩ := execDec_endsOneOfTwoWays s
  obtain rfl := next_unique hx' hx
  refine ⟨t', hx, ?_⟩
  rcases causes with ⟨_, hno⟩ | ⟨_, _, hout⟩ | ⟨herr, _, _, hlen⟩ | ⟨herr, _, _, hlen⟩
  · simp [hv] at hno
  · exact absurd hin hout
  · refine ⟨iff_of_true herr hlen, fun _ => ?_, kept (by simp [herr])⟩
    rcases ends with ⟨hnone, _⟩ | ⟨_, holen⟩
    · simp [herr] at hnone
    · exact holen
  · exact ⟨iff_of_false (by simp [herr]) hlen, fun h => absurd h hlen, kept (by simp [herr])⟩

/-- The lengths that ENC can produce, by their remainder (R92, R108). -/
theorem exists_textLength_iff (n : Nat) : (∃ k, textLength k = n) ↔ n % 8 ∈ [0, 2, 4, 5, 7] := by
  simp only [List.mem_cons, List.not_mem_nil, or_false, textLength]
  constructor
  · rintro ⟨k, rfl⟩
    omega
  · intro h
    exact ⟨5 * n / 8, by omega⟩

/-- Settles O31: after all `LEN` symbols the counts are those of `5 LEN` bits cut into eights, and the merge keeps them. -/
theorem decLengthLaw : Obligations.DecLengthLaw := by
  intro s hv hin hlen
  obtain ⟨t, u, hx, herr, hloop, hfinal⟩ := execDec_succeeds hv hin hlen
  obtain ⟨-, -, -, bits, count⟩ := decLoop_decStart hloop
  obtain ⟨merge, -⟩ := decFinal_going hfinal
  have left : t.dBits.toNat = 5 * s.len % 8 := by rw [merge]; exact bits
  refine ⟨t, hx, herr, by rw [merge]; exact count, left, ?_, exists_textLength_iff s.len⟩
  have table : ∀ r, r < 8 → [0, 5, 2, 7, 4, 1, 6, 3][r]? = some (5 * r % 8) := by decide
  rw [left, table _ (Nat.mod_lt _ (by omega)), Nat.mul_mod_mod]

end Sys2Proof.Proofs
end

section
/-! SUPPORT. O28, O32: the closed forms as bit strings (41_encode R93, 42_decode R109). -/

namespace Sys2Proof.Proofs

open Sys2Proof Sys2Proof.Machine

/-! ## Numbers written as bit strings -/

/-- The bits of a number written most significant first. -/
theorem testBit_msbNumber (w i : Nat) (f : Nat → Bool) :
    (msbNumber w f).testBit i = (decide (i < w) && f (w - 1 - i)) := by
  induction w generalizing i with
  | zero => simp [msbNumber]
  | succ w ih =>
    have low := Bool.toNat_lt (f w)
    cases i with
    | zero => cases h : f w <;> simp [msbNumber, h]
    | succ i =>
      rw [Nat.testBit_succ, msbNumber, Nat.mul_add_div (by omega), Nat.div_eq_of_lt low, Nat.add_zero, ih,
        show w + 1 - 1 - (i + 1) = w - 1 - i by omega]
      simp

/-- A run of bits of `N` above its `e` lowest ones, written as a number. -/
theorem msbNumber_of_testBit {N e w : Nat} {f : Nat → Bool} (h : ∀ q, q < w → f q = N.testBit (e + (w - 1 - q))) :
    msbNumber w f = N / 2 ^ e % 2 ^ w := by
  apply Nat.eq_of_testBit_eq
  intro i
  rw [testBit_msbNumber, Nat.testBit_mod_two_pow, Nat.testBit_div_two_pow]
  by_cases hi : i < w
  · rw [h _ (by omega), show e + (w - 1 - (w - 1 - i)) = i + e by omega]
  · simp [hi]

theorem ofNat_msbNumber {N e w : Nat} {f : Nat → Bool} (h : ∀ q, q < w → f q = N.testBit (e + (w - 1 - q))) :
    BitVec.ofNat w (msbNumber w f) = BitVec.ofNat w (N / 2 ^ e) := by
  apply BitVec.eq_of_toNat_eq
  rw [BitVec.toNat_ofNat, BitVec.toNat_ofNat, msbNumber_of_testBit h, Nat.mod_mod]

/-- `x` has the bits `f 0 .. f (w-1)`, most significant first. -/
def Spelled {w : Nat} (f : Nat → Bool) (x : BitVec w) : Prop := ∀ q, q < w → f q = x.getMsbD q

theorem spelled_append {m n : Nat} {f : Nat → Bool} {x : BitVec m} {y : BitVec n} (hx : Spelled f x)
    (hy : Spelled (fun q => f (m + q)) y) : Spelled f (x ++ y) := by
  intro q hq
  rw [BitVec.getMsbD_append]
  split
  · rename_i second
    rw [← hy (q - m) (by omega)]
    exact congrArg f (Nat.add_sub_of_le second).symm
  · exact hx q (by omega)

/-- A bit vector is the number of the bits that spell it. -/
theorem ofNat_msbNumber_of_spelled {w : Nat} {f : Nat → Bool} {x : BitVec w} (h : Spelled f x) :
    BitVec.ofNat w (msbNumber w f) = x := by
  have bits := ofNat_msbNumber (N := x.toNat) (e := 0) (w := w) (f := f) fun q hq => by
    rw [h q hq, BitVec.getMsbD_eq_getLsbD, Nat.zero_add, BitVec.testBit_toNat]
    simp [hq]
  simpa using bits

/-- Position `p` of the bit string of `n` digits is a bit of the digit it falls into. -/
theorem testBit_digitsNumber {w : Nat} (d : Nat → BitVec w) {n p : Nat} (h : p < w * n) :
    (digitsNumber d n).testBit (w * n - 1 - p) = (d (p / w)).getMsbD (p % w) := by
  induction n with
  | zero => simp at h
  | succ n ih =>
    rw [Nat.mul_succ] at h ⊢
    rw [digitsNumber, Nat.mul_comm, Nat.testBit_two_pow_mul_add _ (d n).isLt]
    by_cases old : p < w * n
    · rw [if_neg (by omega), ← ih old, show w * n + w - 1 - p - w = w * n - 1 - p by omega]
    · obtain ⟨q, rfl⟩ := Nat.exists_eq_add_of_le (Nat.le_of_not_lt old)
      have hq : q < w := by omega
      rw [if_pos (by omega), Nat.mul_add_div (by omega), Nat.div_eq_of_lt hq, Nat.mul_add_mod, Nat.mod_eq_of_lt hq,
        BitVec.testBit_toNat, BitVec.getMsbD_eq_getLsbD, show w * n + w - 1 - (w * n + q) = w - 1 - q by omega]
      simp [hq]

/-! ## ENC -/

/-- The padded data's number has the bits of the data's bit string with zeros after its end. -/
theorem dataBit_eq_testBit (s : State) {p : Nat} (hp : p < 5 * textLength s.len) :
    dataBit s.inAt s.len p = (paddedNumber s).testBit (5 * textLength s.len - 1 - p) := by
  have fits : 8 * s.len ≤ 5 * textLength s.len := by unfold textLength; omega
  rw [dataBit, paddedNumber, Nat.testBit_mul_two_pow]
  by_cases data : p < 8 * s.len
  · rw [← testBit_digitsNumber s.inAt data, show 5 * textLength s.len - 1 - p - (5 * textLength s.len - 8 * s.len) =
      8 * s.len - 1 - p by omega]
    simp only [data, decide_true, show 5 * textLength s.len - 8 * s.len ≤ 5 * textLength s.len - 1 - p by omega]
  · simp only [data, decide_false, Bool.false_and,
      show ¬ 5 * textLength s.len - 8 * s.len ≤ 5 * textLength s.len - 1 - p by omega]

/-- The group `g_j` of R93 is the `j`-th five of the padded data. -/
theorem dataGroup_eq (s : State) {j : Nat} (hj : j < textLength s.len) :
    dataGroup s.inAt s.len j = BitVec.ofNat 5 (paddedNumber s / 2 ^ (5 * (textLength s.len - (j + 1)))) := by
  refine ofNat_msbNumber fun q hq => ?_
  rw [dataBit_eq_testBit s (by omega)]
  congr 1
  omega

theorem dataGroup_of_spelled {b : Nat → Byte} {n j : Nat} {x : Index} (h : Spelled (fun q => dataBit b n (5 * j + q)) x) :
    dataGroup b n j = x :=
  ofNat_msbNumber_of_spelled h

/-- Settles O28: the symbols ENC writes are the fives of the padded data, which are its groups; the table is read off the
bits. -/
theorem encWritesTheGroupsOfTheBitString : Obligations.EncWritesTheGroupsOfTheBitString := by
  refine ⟨fun s hv => ?_, fun b => ?_⟩
  · obtain ⟨hx, encoded⟩ := execEnc_encoded hv
    refine ⟨_, hx, encoded.err, encoded.count, fun j hj => ?_⟩
    rw [dataGroup_eq s hj]
    exact (execEnc_symbols hv hx).2 j hj
  · refine ⟨dataGroup_of_spelled ?_, dataGroup_of_spelled (spelled_append ?_ ?_), dataGroup_of_spelled ?_,
      dataGroup_of_spelled (spelled_append ?_ ?_), dataGroup_of_spelled (spelled_append ?_ ?_), dataGroup_of_spelled ?_,
      dataGroup_of_spelled (spelled_append ?_ ?_), dataGroup_of_spelled ?_, dataGroup_of_spelled (spelled_append ?_ ?_),
      dataGroup_of_spelled (spelled_append ?_ ?_), dataGroup_of_spelled (spelled_append ?_ ?_),
      dataGroup_of_spelled (spelled_append ?_ ?_)⟩
    all_goals
      intro q hq
      interval_cases q <;> simp [dataBit, BitVec.getMsbD_extractLsb']

/-! ## DEC -/

theorem textBit_eq_testBit (idx : Nat → Index) {n p : Nat} (hp : p < 5 * n) :
    textBit idx p = (digitsNumber idx n).testBit (5 * n - 1 - p) := (testBit_digitsNumber idx hp).symm

/-- The byte `y_j` of R109 is the `j`-th eight of the text's number. -/
theorem textByte_eq (idx : Nat → Index) {n j : Nat} (hj : j < byteLength n) :
    textByte idx j = BitVec.ofNat 8 (digitsNumber idx n / 2 ^ (5 * n - 8 * (j + 1))) := by
  unfold byteLength at hj
  refine ofNat_msbNumber fun q hq => ?_
  rw [textBit_eq_testBit idx (n := n) (by omega)]
  congr 1
  omega

/-- The trailing bits of R109 are the low bits of the text's number. -/
theorem textTail_eq (idx : Nat → Index) (n : Nat) :
    textTail idx n = BitVec.ofNat 8 (digitsNumber idx n % 2 ^ (5 * n % 8)) := by
  rw [textTail, msbNumber_of_testBit (N := digitsNumber idx n) (e := 0) fun q hq => ?_, Nat.pow_zero, Nat.div_one]
  rw [textBit_eq_testBit idx (n := n) (by omega)]
  congr 1
  omega

/-- The end of the input merges the bits held into the last byte, which changes nothing when there are none (R107). -/
theorem decFinal_merges {u t : State} (h : u.decFinal = .going t) {j : Nat} {b : Byte} (hj : j < u.olen)
    (hb : u.out.get? j = some b) :
    t.out.get? j = some (if j + 1 = u.olen then b ||| BitVec.ofNat 8 (u.dChunk.toNat % 2 ^ u.dBits.toNat) else b) := by
  rw [State.decFinal] at h
  split at h
  · rw [if_neg (by omega)] at h
    cases h
    rw [State.decMerge_out, Memory.get?_set, and_lowMask]
    by_cases last : j + 1 = u.olen
    · rw [if_pos (by omega), if_pos last, State.outAt, show u.olen - 1 = j by omega, hb, Option.getD_some]
    · rw [if_neg (by omega), if_neg last, hb]
  · rename_i unheld
    cases h
    rw [hb, Nat.eq_zero_of_not_pos unheld]
    simp [Nat.mod_one]

/-- DEC that does not raise writes the bytes of R109. -/
theorem execDec_writes {s : State} (hv : s.valid = true) (hin : InputInAlphabet s) (hlen : s.len ≠ 1) :
    ∃ t, execDec s = .next t ∧ t.err = .none ∧ t.olen = byteLength s.len ∧ ∀ j, j < byteLength s.len → t.out.get? j = some
      (if j + 1 = byteLength s.len then textByte (inputIndex s) j ||| textTail (inputIndex s) s.len
        else textByte (inputIndex s) j) := by
  obtain ⟨t, u, hx, herr, hloop, hfinal⟩ := execDec_succeeds hv hin hlen
  obtain ⟨-, -, -, bits, count⟩ := decLoop_decStart hloop
  obtain ⟨merge, -⟩ := decFinal_going hfinal
  have length : u.olen = byteLength s.len := count
  refine ⟨t, hx, herr, by rw [merge]; exact length, fun j hj => ?_⟩
  rw [decFinal_merges hfinal (length ▸ hj) (decLoop_byte hloop hj), length, decLoop_chunk hloop, bits, Nat.mod_mod,
    textByte_eq _ hj, textTail_eq]

theorem textByte_of_spelled {v : Nat → Index} {j : Nat} {x : Byte} (h : Spelled (fun q => textBit v (8 * j + q)) x) :
    textByte v j = x :=
  ofNat_msbNumber_of_spelled h

/-- Settles O32: DEC's bytes are the eights of the text's number, with its low bits merged into the last; trailing bits with
no byte are those of one character; the table is read off the bits. -/
theorem decWritesTheBytesOfTheBitString : Obligations.DecWritesTheBytesOfTheBitString := by
  refine ⟨fun s => execDec_writes, fun s hv hin left short => ?_, fun v => ?_⟩
  · have one : s.len = 1 := by unfold byteLength at short; omega
    obtain ⟨t, hx, raised, olen, -⟩ := decRejectsOneCharacter s hv hin
    exact ⟨t, hx, raised.2 one, olen one⟩
  · refine ⟨textByte_of_spelled (spelled_append ?_ ?_), textByte_of_spelled (spelled_append (spelled_append ?_ ?_) ?_),
      textByte_of_spelled (spelled_append ?_ ?_), textByte_of_spelled (spelled_append (spelled_append ?_ ?_) ?_),
      textByte_of_spelled (spelled_append ?_ ?_)⟩
    all_goals
      intro q hq
      interval_cases q <;> simp [textBit, BitVec.getMsbD_extractLsb']

end Sys2Proof.Proofs
end

section
/-! SUPPORT. O40, O41: what every command leaves, and what it says of its errors (20_memory R31, 60_exceptions R122). -/

namespace Sys2Proof.Proofs

open Sys2Proof Sys2Proof.Machine

/-- What every command word leaves alone of what the invariants read: the host's side of the buffers and the capacity. -/
structure CommandKeeps (s t : State) : Prop where
  inp : t.inp = s.inp
  len : t.len = s.len
  maxIn : t.maxIn = s.maxIn
  resets : t.resets = s.resets

theorem exec_keeps {i : Instr} {s t : State} (h : exec i s = .next t) : CommandKeeps s t := by
  cases i with
  | initr a =>
    obtain ⟨frame, -⟩ := execInitr_keeps h
    constructor <;> rw [frame]
  | initb =>
    have frame := execInitb_keeps h
    constructor <;> rw [frame]
  | enc =>
    obtain ⟨frame, -⟩ := encFrame s t h
    constructor <;> rw [frame]
  | dec =>
    obtain ⟨frame, -⟩ := decFrame s t h
    constructor <;> rw [frame]

theorem hostIssue_keeps {w : Byte} {s t : State} (h : hostIssue w s = .next t) : CommandKeeps s t := by
  unfold hostIssue at h
  split at h
  · exact exec_keeps h
  · cases h
    exact ⟨rfl, rfl, rfl, rfl⟩

/-- Settles O40: issuing a word performs a command or raises IllegalCommand, and neither writes IN or LEN. -/
theorem onlyTheHostChangesTheInput : Obligations.OnlyTheHostChangesTheInput := by
  intro s t w rest h
  have kept : CommandKeeps { s with pending := rest } t := hostIssue_keeps h
  exact ⟨kept.len, kept.inp, fun i => by rw [State.inAt, kept.inp, kept.resets]; rfl⟩

/-! ## The construction commands -/

theorem execInitr_next {a : Builtin} {s t : State} (h : execInitr a s = .next t) :
    t.err = .none ∧ t.olen = 0 ∧ TablesFrom (fun i => romAt a (BitVec.ofNat 5 i)) t := by
  obtain ⟨t', hx, tables, -, err, olen⟩ := initrBuildsTheBuiltinTables a s
  obtain rfl := next_unique hx h
  exact ⟨err, olen, tables⟩

/-- The two ways INITB can end. -/
theorem execInitb_next {s t : State} (h : execInitb s = .next t) :
    (t.valid = true ∧ t.err = .none ∧ t.olen = 0 ∧ TablesFrom s.inAt t) ∨
    (t.valid = false ∧ t.err = .invalidAlphabet ∧ t.olen = 0) := by
  rcases execInitb_cases s with ⟨_, hx⟩ | ⟨_, u, hx, done⟩ | ⟨_, _, u, _, _, _, hx⟩ <;> rw [hx] at h <;> cases h
  · exact .inr ⟨rfl, rfl, rfl⟩
  · exact .inl ⟨rfl, passFrame_err done.frame, passFrame_olen done.frame, tablesFrom_of_passDone done⟩
  · exact .inr ⟨rfl, rfl, rfl⟩

/-! ## The errors -/

/-- Every error a command can leave, with what it says of the codec and of ERRCHAR (R122). -/
theorem exec_err_cases {i : Instr} {s t : State} (h : exec i s = .next t) :
    t.err = .none ∨ (t.err = .invalidAlphabet ∧ t.valid = false) ∨ (t.err = .noCodec ∧ t.valid = false) ∨
    (t.err = .invalidInput ∧ t.valid = true) ∨
    (t.err = .invalidCharacter ∧ t.valid = true ∧ t.revAt t.errchar = none) := by
  cases i with
  | initr a =>
    obtain ⟨err, -⟩ := execInitr_next h
    exact .inl err
  | initb =>
    rcases execInitb_next h with ⟨_, err, _⟩ | ⟨valid, err, _⟩
    · exact .inl err
    · exact .inr (.inl ⟨err, valid⟩)
  | enc =>
    rcases execEnc_next h with ⟨hv, rfl⟩ | ⟨_, encoded⟩
    · exact .inr (.inr (.inl ⟨rfl, hv⟩))
    · exact .inl encoded.err
  | dec =>
    obtain ⟨-, sameRev, sameValid⟩ := execDec_sameCodec h
    rcases execDec_next h with ⟨hv, rfl⟩ | ⟨hv, u, m, decoded⟩
    · exact .inr (.inr (.inl ⟨rfl, hv⟩))
    · have valid := sameValid.trans hv
      rcases decoded.outcome with ⟨err, miss⟩ | ⟨err, _⟩ | ⟨err, _⟩
      · exact .inr (.inr (.inr (.inr ⟨err, valid, by simpa only [State.revAt, sameRev] using miss⟩)))
      · exact .inr (.inr (.inr (.inl ⟨err, valid⟩)))
      · exact .inl err

/-- Of the commands only DEC writes ERRCHAR, when it raises InvalidCharacter (10_state R15). -/
theorem exec_errchar {i : Instr} {s t : State} (h : exec i s = .next t) (changed : t.errchar ≠ s.errchar) :
    i = .dec ∧ t.err = .invalidCharacter := by
  cases i with
  | initr a => exact absurd (by rw [(execInitr_keeps h).1]) changed
  | initb => exact absurd (by rw [execInitb_keeps h]) changed
  | enc => exact absurd (by rw [(encFrame s t h).1]) changed
  | dec =>
    obtain ⟨-, kept, -⟩ := decFrame s t h
    exact ⟨rfl, not_not.1 fun herr => changed (kept herr)⟩

/-- Settles O41: a performed word that changed ERRCHAR is the word of DEC, and no other step but Reset writes the register. -/
theorem onlyInvalidCharacterWritesErrchar : Obligations.OnlyInvalidCharacterWritesErrchar := by
  intro s t h changed
  cases step_cases h with
  | idle _ same => exact absurd (by rw [same]) changed
  | wroteIn _ _ _ _ _ result => exact absurd (by rw [result]) changed
  | wroteLen _ _ _ _ result => exact absurd (by rw [result]) changed
  | read _ _ _ _ result => exact absurd (by rw [result]) changed
  | rejected _ _ _ _ _ result => exact absurd (by rw [result]; rfl) changed
  | reset rest pending _ => exact .inl ⟨rest, pending⟩
  | performed rest w i pending decoded result =>
    obtain ⟨rfl, err⟩ := exec_errchar result changed
    have word : 0x40 = w := encode_of_decode decoded
    exact .inr ⟨rest, word ▸ pending, err⟩

end Sys2Proof.Proofs
end

section
/-! SUPPORT. O42 to O48: the invariants of the block. -/

namespace Sys2Proof.Proofs

open Sys2Proof Sys2Proof.Machine

/-! ## One step, as the invariants see it -/

/-- What a host write or read and an idle step leave alone: all that commands and Reset alone write. -/
def BlockKept (s t : State) : Prop :=
  t = { s with inp := t.inp, len := t.len, pending := t.pending, answer := t.answer, draws := t.draws }

/-- A step leaves the block alone, performs a command, raises IllegalCommand, or resets the block. -/
theorem step_effect {s t : State} (h : step s = .next t) :
    BlockKept s t ∨ ∃ rest, (∃ i, exec i { s with pending := rest } = .next t) ∨
      t = State.illegalCommand { s with pending := rest } ∨ t = State.doReset { s with pending := rest } := by
  cases step_cases h with
  | idle _ same => exact .inl (by rw [same]; rfl)
  | wroteIn _ _ _ _ _ result => exact .inl (by rw [result]; rfl)
  | wroteLen _ _ _ _ result => exact .inl (by rw [result]; rfl)
  | read _ _ _ _ result => exact .inl (by rw [result]; rfl)
  | performed rest _ i _ _ result => exact .inr ⟨rest, .inl ⟨i, result⟩⟩
  | rejected rest _ _ _ _ result => exact .inr ⟨rest, .inr (.inl result)⟩
  | reset rest _ result => exact .inr ⟨rest, .inr (.inr result)⟩

/-- A predicate of what commands and Reset write is an invariant when every command, IllegalCommand and Reset keep it. -/
theorem step_keeps {P : State → Prop} (kept : ∀ s t, BlockKept s t → P s → P t)
    (command : ∀ i s t, P s → exec i s = .next t → P t) (illegal : ∀ s, P s → P s.illegalCommand)
    (reset : ∀ s : State, P s.doReset) : ∀ s t, P s → step s = .next t → P t := by
  intro s t hs h
  rcases step_effect h with same | ⟨rest, ⟨i, hx⟩ | rfl | rfl⟩
  · exact kept s t same hs
  · exact command i _ t (kept s { s with pending := rest } rfl hs) hx
  · exact illegal _ (kept s { s with pending := rest } rfl hs)
  · exact reset _

/-! ## The buffers -/

/-- A command writes OUT one unit after another. -/
theorem exec_out_canonical {i : Instr} {s t : State} (h : exec i s = .next t) (hs : s.out.wf) : t.out.wf := by
  cases i with
  | initr a =>
    obtain ⟨frame, -⟩ := execInitr_keeps h
    rw [frame]
    exact hs
  | initb =>
    rw [execInitb_keeps h]
    exact hs
  | enc =>
    rcases execEnc_next h with ⟨_, rfl⟩ | ⟨_, encoded⟩
    · exact hs
    · exact encoded.appends.canonical hs
  | dec =>
    rcases execDec_next h with ⟨_, rfl⟩ | ⟨_, u, m, decoded⟩
    · exact hs
    · have written := decoded.appends.canonical hs
      rcases decoded.last with same | ⟨_, v, merged⟩
      · rwa [same]
      · rw [merged]
        exact Memory.set_wf written _ _

/-- Settles O42: every write to IN or OUT is a write of one unit, which keeps the canonical form. -/
theorem buffersStayCanonical : Obligations.BuffersStayCanonical := by
  rintro s t ⟨hin, hout⟩ h
  cases step_cases h with
  | idle _ same => rw [same]; exact ⟨hin, hout⟩
  | wroteIn _ i v _ _ result => rw [result]; exact ⟨Memory.set_wf hin i v, hout⟩
  | wroteLen _ _ _ _ result => rw [result]; exact ⟨hin, hout⟩
  | read _ _ _ _ result => rw [result]; exact ⟨hin, hout⟩
  | rejected _ _ _ _ _ result => rw [result]; exact ⟨hin, hout⟩
  | reset _ _ result => rw [result]; exact reset_buffersCanonical
  | performed _ _ _ _ _ result => exact ⟨(exec_keeps result).inp ▸ hin, exec_out_canonical result hout⟩

/-! ## The codec -/

/-- The tables of an alphabet are each other's inverse (10_state R12). -/
theorem tablesInverse_of_tablesFrom {char : Nat → Byte} {t : State} (h : TablesFrom char t) : TablesInverse t := by
  obtain ⟨fwd, hit, miss⟩ := h
  have forth : ∀ k : Index, t.revAt (t.fwdAt k) = some k := fun k => by rw [fwd, hit]
  have back : ∀ (c : Byte) (k : Index), t.revAt c = some k → t.fwdAt k = c := by
    intro c k found
    by_cases h : ∃ j : Index, char j.toNat = c
    · obtain ⟨j, rfl⟩ := h
      rw [hit, Option.some.injEq] at found
      rw [← found, fwd]
    · rw [miss c fun j hj => h ⟨j, hj⟩] at found
      cases found
  exact ⟨card_hits forth back, forth, back⟩

theorem codecSound_of_sameCodec {s t : State} (h : SameCodec s t) (hs : CodecSound s) : CodecSound t := by
  obtain ⟨fwd, rev, valid⟩ := h
  simpa only [CodecSound, TablesInverse, State.revAt, State.fwdAt, fwd, rev, valid] using hs

theorem exec_codecSound {i : Instr} {s t : State} (h : exec i s = .next t) (hs : CodecSound s) : CodecSound t := by
  cases i with
  | initr a =>
    obtain ⟨-, -, tables⟩ := execInitr_next h
    exact fun _ => tablesInverse_of_tablesFrom tables
  | initb =>
    rcases execInitb_next h with ⟨_, _, _, tables⟩ | ⟨lost, _⟩
    · exact fun _ => tablesInverse_of_tablesFrom tables
    · exact fun valid => by simp [lost] at valid
  | enc => exact codecSound_of_sameCodec (execEnc_sameCodec h) hs
  | dec => exact codecSound_of_sameCodec (execDec_sameCodec h) hs

/-- Settles O43: a construction that leaves VALID at 1 leaves the tables of an alphabet, and any other command keeps the
codec. -/
theorem codecStaysSound : Obligations.CodecStaysSound :=
  step_keeps (fun s _ kept => codecSound_of_sameCodec (by rw [kept]; exact SameCodec.refl s))
    (fun _ _ _ hs h => exec_codecSound h hs) (fun s => codecSound_of_sameCodec (SameCodec.refl s))
    (fun _ valid => by cases valid)

/-! ## STATUS and ERRCHAR -/

/-- The eight values of STATUS, by outcome: two errors leave no codec, two leave one, and the other outcomes say nothing. -/
theorem statusLegal_iff (s : State) : StatusLegal s ↔
    (s.err = .invalidAlphabet ∨ s.err = .noCodec → s.valid = false) ∧
    (s.err = .invalidCharacter ∨ s.err = .invalidInput → s.valid = true) := by
  unfold StatusLegal State.status
  generalize s.err = e
  generalize s.valid = v
  cases e <;> cases v <;> decide

theorem reset_statusLegal : StatusLegal State.reset := by unfold StatusLegal; decide

/-- Whatever the state before, the outcome of a command and VALID after it go together. -/
theorem exec_statusLegal {i : Instr} {s t : State} (h : exec i s = .next t) : StatusLegal t := by
  rw [statusLegal_iff]
  rcases exec_err_cases h with err | ⟨err, valid⟩ | ⟨err, valid⟩ | ⟨err, valid⟩ | ⟨err, valid, _⟩
  · simp [err]
  all_goals simp [err, valid]

/-- Settles O44: each error of a command says whether there is a codec, and IllegalCommand may stand with and without one. -/
theorem statusStaysOneOfEightValues : Obligations.StatusStaysOneOfEightValues :=
  step_keeps (fun _ _ kept hs => by rw [kept]; exact hs) (fun _ _ _ _ => exec_statusLegal)
    (fun s _ => (statusLegal_iff _).2 ⟨by simp [State.illegalCommand], by simp [State.illegalCommand]⟩)
    (fun _ => reset_statusLegal)

/-- Settles O46: a command that leaves ERR at 2 is a DEC that has just looked ERRCHAR up in vain. -/
theorem errcharStaysOutsideTheAlphabet : Obligations.ErrcharStaysOutsideTheAlphabet := by
  refine step_keeps (fun _ _ kept hs => by rw [kept]; exact hs) (fun i s t _ h raised => ?_) (fun _ _ raised => by cases raised)
    (fun _ raised => by cases raised)
  rcases exec_err_cases h with err | ⟨err, _⟩ | ⟨err, _⟩ | ⟨err, _⟩ | ⟨_, backed⟩
  · simp [err] at raised
  · simp [err] at raised
  · simp [err] at raised
  · simp [err] at raised
  · exact backed

/-! ## The working registers -/

theorem reset_workBounded : WorkBounded State.reset := by unfold WorkBounded; decide

theorem exec_workBounded {i : Instr} {s t : State} (h : exec i s = .next t) (hs : WorkBounded s) : WorkBounded t := by
  cases i with
  | initr a =>
    obtain ⟨frame, -⟩ := execInitr_keeps h
    rw [frame]
    exact hs
  | initb =>
    rw [execInitb_keeps h]
    exact hs
  | enc =>
    rcases execEnc_next h with ⟨_, rfl⟩ | ⟨_, encoded⟩
    · exact hs
    · obtain ⟨-, -, dBits, dChunk⟩ := hs
      have bits := encoded.bits
      refine ⟨by omega, encoded.carry, ?_, ?_⟩
      all_goals rw [encoded.keeps]
      · exact dBits
      · exact dChunk
  | dec =>
    rcases execDec_next h with ⟨_, rfl⟩ | ⟨_, u, m, decoded⟩
    · exact hs
    · obtain ⟨eBits, eCarry, -, -⟩ := hs
      obtain ⟨bits, -, chunk⟩ := decLoop_counts m (decStart s) u (by simp) (by simp) decoded.loop
      have kept := decoded.keeps
      rw [decoded.frame]
      refine ⟨?_, ?_, by show u.dBits.toNat ≤ 7; omega, chunk⟩
      all_goals rw [kept]
      · exact eBits
      · exact eCarry

/-- Settles O47: a fold leaves its own registers in their ranges after any number of elements, and the other's alone. -/
theorem workingRegistersStayBounded : Obligations.WorkingRegistersStayBounded :=
  step_keeps (fun _ _ kept hs => by rw [kept]; exact hs) (fun _ _ _ hs h => exec_workBounded h hs) (fun _ hs => hs)
    (fun _ => reset_workBounded)

/-! ## The lengths -/

theorem fitsIn_mono {s : State} {m n : Nat} (h : s.fitsIn n = true) (le : m ≤ n) : s.fitsIn m = true := by
  unfold State.fitsIn at *
  split at h
  · rfl
  · exact decide_eq_true (Nat.le_trans le (of_decide_eq_true h))

/-- What fits into IN has its encoding fit into OUT, and anything shorter (00_scope R5). -/
theorem fitsOut_of_fitsIn {s : State} {m n : Nat} (h : s.fitsIn n = true) (le : m ≤ textLength n) : s.fitsOut m = true := by
  unfold State.fitsIn at h
  unfold State.fitsOut
  split at h
  · rfl
  · have room := of_decide_eq_true h
    exact decide_eq_true (by unfold textLength at le; unfold maxOutOf; omega)

/-- No command leaves a result longer than an encoding of its input. -/
theorem exec_olen_le {i : Instr} {s t : State} (h : exec i s = .next t) : t.olen ≤ textLength s.len := by
  cases i with
  | initr a =>
    obtain ⟨-, olen, -⟩ := execInitr_next h
    exact olen ▸ Nat.zero_le _
  | initb =>
    rcases execInitb_next h with ⟨_, _, olen, _⟩ | ⟨_, _, olen⟩
    · exact olen ▸ Nat.zero_le _
    · exact olen ▸ Nat.zero_le _
  | enc =>
    rcases execEnc_next h with ⟨_, rfl⟩ | ⟨_, encoded⟩
    · exact Nat.zero_le _
    · exact encoded.count.le
  | dec =>
    rcases execDec_next h with ⟨_, rfl⟩ | ⟨_, u, m, decoded⟩
    · exact Nat.zero_le _
    · calc t.olen ≤ u.olen := decoded.count
        _ ≤ byteLength s.len := decoded.count_le
        _ ≤ textLength s.len := by unfold byteLength textLength; omega

theorem exec_resultHeld {i : Instr} {s t : State} (h : exec i s = .next t) (hs : LengthFits s) : ResultHeld t := by
  obtain ⟨t', hx, ends⟩ := everyCommandEndsOneOfTwoWays i s
  obtain rfl := next_unique hx h
  have fits : t'.fitsOut t'.olen = true := by
    rw [State.fitsOut, (exec_keeps h).maxIn]
    exact fitsOut_of_fitsIn hs (exec_olen_le h)
  rcases ends with ⟨err, written⟩ | ⟨_, olen⟩
  · exact ⟨fits, written, fun raised => absurd err raised⟩
  · exact ⟨fits, fun j hj => by omega, fun _ => olen⟩

theorem step_lengthFits {s t : State} (h : step s = .next t) (hs : LengthFits s) : LengthFits t := by
  cases step_cases h with
  | idle _ same => rw [same]; exact hs
  | wroteIn _ _ _ _ _ result => rw [result]; exact hs
  | wroteLen _ _ _ fits result => rw [result]; exact fits
  | read _ _ _ _ result => rw [result]; exact hs
  | rejected _ _ _ _ _ result => rw [result]; exact hs
  | reset _ _ result => rw [result]; exact fitsIn_mono hs (Nat.zero_le _)
  | performed _ _ _ _ _ result =>
    have kept := exec_keeps result
    rw [LengthFits, State.fitsIn, kept.maxIn, kept.len]
    exact hs

theorem step_resultHeld {s t : State} (h : step s = .next t) (hlen : LengthFits s) (hs : ResultHeld s) : ResultHeld t := by
  obtain ⟨fits, written, failed⟩ := hs
  have empty : s.fitsOut 0 = true := fitsOut_of_fitsIn hlen (Nat.zero_le _)
  rcases step_effect h with same | ⟨rest, ⟨i, hx⟩ | rfl | rfl⟩
  · rw [same]
    exact ⟨fits, written, failed⟩
  · exact exec_resultHeld hx hlen
  · exact ⟨empty, fun _ hj => absurd hj (Nat.not_lt_zero _), fun _ => rfl⟩
  · exact ⟨empty, fun _ hj => absurd hj (Nat.not_lt_zero _), fun _ => rfl⟩

/-- Settles O45: a command's result is no longer than an encoding of an input that fits, and is written throughout. -/
theorem lengthsStayWithinTheBuffers : Obligations.LengthsStayWithinTheBuffers :=
  fun _ _ hlen hs h => ⟨step_lengthFits h hlen, step_resultHeld h hlen hs⟩

/-! ## Reset -/

/-- Settles O48: reset leaves empty buffers, no codec, no error, and registers at 0. -/
theorem resetMeetsEveryInvariant : Obligations.ResetMeetsEveryInvariant where
  buffers := reset_buffersCanonical
  codec := fun valid => by cases valid
  status := reset_statusLegal
  length := rfl
  result := ⟨rfl, fun _ hj => absurd hj (Nat.not_lt_zero _), fun _ => rfl⟩
  errchar := fun raised => by cases raised
  work := reset_workBounded

end Sys2Proof.Proofs
end

section
/-! SUPPORT. O38: a command's outcome is that of any state with the same codec and the same input (10_state R21). -/

namespace Sys2Proof.Proofs

open Sys2Proof Sys2Proof.Machine

/-- The two states have the same codec and the same input: all that a command may look at. -/
structure SameSource (s s' : State) : Prop where
  fwd : s.fwd = s'.fwd
  rev : s.rev = s'.rev
  valid : s.valid = s'.valid
  len : s.len = s'.len
  units : ∀ p, p < s.len → s.inAt p = s'.inAt p

/-- The two states show the same STATUS, OLEN and result, the same ERRCHAR where it counts, and the same codec where one is
left. -/
def SameOutcome (t t' : State) : Prop :=
  t.status = t'.status ∧ t.olen = t'.olen ∧ (∀ j, j < t.olen → t.out.get? j = t'.out.get? j) ∧
  (t.err = .invalidCharacter → t.errchar = t'.errchar) ∧ (t.valid = true → t.fwd = t'.fwd ∧ t.rev = t'.rev)

theorem status_congr {t t' : State} (err : t.err = t'.err) (valid : t.valid = t'.valid) : t.status = t'.status := by
  rw [State.status, State.status, err, valid]

/-! ## The construction commands -/

/-- The lookups of the tables are all there is to them. -/
theorem tables_eq_of_lookups {t u : State} (fwd : ∀ k, t.fwdAt k = u.fwdAt k) (rev : ∀ c, t.revAt c = u.revAt c) :
    t.fwd = u.fwd ∧ t.rev = u.rev := by
  constructor
  · apply Vector.ext
    intro i hi
    simpa [State.fwdAt, Nat.mod_eq_of_lt hi] using fwd (BitVec.ofNat 5 i)
  · apply Vector.ext
    intro i hi
    simpa [State.revAt, Nat.mod_eq_of_lt hi] using rev (BitVec.ofNat 8 i)

/-- Two constructions that build the tables of the same characters have the same outcome. -/
theorem sameOutcome_of_built {char char' : Nat → Byte} {t t' : State} (tables : TablesFrom char t) (tables' : TablesFrom char' t')
    (same : ∀ k : Index, char k.toNat = char' k.toNat) (valid : t.valid = true) (valid' : t'.valid = true)
    (err : t.err = .none) (err' : t'.err = .none) (olen : t.olen = 0) (olen' : t'.olen = 0) : SameOutcome t t' := by
  obtain ⟨fwd, rev⟩ := tablesFrom_agree tables tables' same
  exact ⟨status_congr (err.trans err'.symm) (valid.trans valid'.symm), olen.trans olen'.symm, fun j hj => by omega,
    fun raised => by simp [err] at raised, fun _ => tables_eq_of_lookups fwd rev⟩

theorem execInitr_sameOutcome (a : Builtin) (s s' : State) :
    ∃ t t', exec (.initr a) s = .next t ∧ exec (.initr a) s' = .next t' ∧ SameOutcome t t' := by
  obtain ⟨t, hx, tables, valid, err, olen⟩ := initrBuildsTheBuiltinTables a s
  obtain ⟨t', hx', tables', valid', err', olen'⟩ := initrBuildsTheBuiltinTables a s'
  exact ⟨t, t', hx, hx', sameOutcome_of_built tables tables' (fun _ => rfl) valid valid' err err' olen olen'⟩

/-- INITB that does not get 32 distinct characters leaves no codec. -/
theorem execInitb_fails {s : State} (h : ¬ (s.len = 32 ∧ AlphabetDistinct s)) :
    ∃ t, exec .initb s = .next t ∧ t.err = .invalidAlphabet ∧ t.valid = false ∧ t.olen = 0 := by
  obtain ⟨t, hx, olen, ⟨_, cause⟩ | ⟨err, _⟩⟩ := execInitb_outcomes s
  · exact absurd cause h
  · obtain ⟨lost, -, -, -⟩ := failedInitbLosesTheCodec s t hx (by simp [err])
    exact ⟨t, hx, err, lost, olen⟩

theorem alphabetDistinct_of_sameSource {s s' : State} (h : SameSource s s') (hlen : s.len = 32) (hs : AlphabetDistinct s) :
    AlphabetDistinct s' := by
  intro i j hi hj same
  exact hs i j hi hj (by rw [h.units i (by omega), h.units j (by omega), same])

theorem SameSource.symm {s s' : State} (h : SameSource s s') : SameSource s' s :=
  ⟨h.fwd.symm, h.rev.symm, h.valid.symm, h.len.symm, fun p hp => (h.units p (h.len ▸ hp)).symm⟩

theorem execInitb_sameOutcome {s s' : State} (h : SameSource s s') :
    ∃ t t', exec .initb s = .next t ∧ exec .initb s' = .next t' ∧ SameOutcome t t' := by
  by_cases good : s.len = 32 ∧ AlphabetDistinct s
  · obtain ⟨hlen, distinct⟩ := good
    obtain ⟨t, hx, tables, valid, err, olen⟩ := initbBuildsTheTablesOfTheBuffer s hlen distinct
    obtain ⟨t', hx', tables', valid', err', olen'⟩ := initbBuildsTheTablesOfTheBuffer s' (h.len ▸ hlen)
      (alphabetDistinct_of_sameSource h hlen distinct)
    have same : ∀ k : Index, s.inAt k.toNat = s'.inAt k.toNat := fun k => h.units _ (by omega)
    exact ⟨t, t', hx, hx', sameOutcome_of_built tables tables' same valid valid' err err' olen olen'⟩
  · have bad : ¬ (s'.len = 32 ∧ AlphabetDistinct s') := fun ⟨hlen, distinct⟩ =>
      good ⟨h.len.trans hlen, alphabetDistinct_of_sameSource h.symm hlen distinct⟩
    obtain ⟨t, hx, err, valid, olen⟩ := execInitb_fails good
    obtain ⟨t', hx', err', valid', olen'⟩ := execInitb_fails bad
    exact ⟨t, t', hx, hx', status_congr (err.trans err'.symm) (valid.trans valid'.symm), olen.trans olen'.symm,
      fun j hj => by omega, fun raised => by simp [err] at raised, fun codec => by simp [valid] at codec⟩

/-! ## ENC and DEC -/

/-- Two commands that keep the codec have the same outcome when they leave the same error, result and ERRCHAR. -/
theorem sameOutcome_of_sameCodec {s s' t t' : State} (h : SameSource s s') (kept : SameCodec s t) (kept' : SameCodec s' t')
    (err : t.err = t'.err) (olen : t.olen = t'.olen) (out : ∀ j, j < t.olen → t.out.get? j = t'.out.get? j)
    (errchar : t.err = .invalidCharacter → t.errchar = t'.errchar) : SameOutcome t t' := by
  obtain ⟨fwd, rev, valid⟩ := kept
  obtain ⟨fwd', rev', valid'⟩ := kept'
  exact ⟨status_congr err (by rw [valid, valid', h.valid]), olen, out, errchar,
    fun _ => ⟨by rw [fwd, fwd', h.fwd], by rw [rev, rev', h.rev]⟩⟩

/-- Without a codec both raise NoCodec. -/
theorem noCodec_sameOutcome {s s' : State} (h : SameSource s s') (hv : s.valid = false) {i : Instr}
    (hi : i ∈ [Instr.enc, Instr.dec]) : ∃ t t', exec i s = .next t ∧ exec i s' = .next t' ∧ SameOutcome t t' :=
  ⟨_, _, exec_enc_or_dec_of_not_valid hv hi, exec_enc_or_dec_of_not_valid (h.valid ▸ hv) hi,
    sameOutcome_of_sameCodec h (SameCodec.refl s) (SameCodec.refl s') rfl rfl (fun _ hj => absurd hj (Nat.not_lt_zero _))
      (fun raised => by cases raised)⟩

theorem digitsNumber_congr {w n : Nat} {d d' : Nat → BitVec w} (h : ∀ j, j < n → d j = d' j) :
    digitsNumber d n = digitsNumber d' n := by
  induction n with
  | zero => rfl
  | succ n ih => rw [digitsNumber, digitsNumber, ih fun j hj => h j (by omega), h n (by omega)]

theorem execEnc_sameOutcome {s s' : State} (h : SameSource s s') :
    ∃ t t', exec .enc s = .next t ∧ exec .enc s' = .next t' ∧ SameOutcome t t' := by
  cases hv : s.valid with
  | false => exact noCodec_sameOutcome h hv (by decide)
  | true =>
    have hv' := h.valid ▸ hv
    obtain ⟨hx, encoded⟩ := execEnc_encoded hv
    obtain ⟨hx', encoded'⟩ := execEnc_encoded hv'
    obtain ⟨olen, symbols⟩ := execEnc_symbols hv hx
    obtain ⟨olen', symbols'⟩ := execEnc_symbols hv' hx'
    have number : paddedNumber s = paddedNumber s' := by
      rw [paddedNumber, paddedNumber, digitsNumber_congr h.units, h.len]
    refine ⟨_, _, hx, hx', sameOutcome_of_sameCodec h (execEnc_sameCodec hx) (execEnc_sameCodec hx')
      (encoded.err.trans encoded'.err.symm) (by rw [olen, olen', h.len]) (fun j hj => ?_)
      (fun raised => by simp [encoded.err] at raised)⟩
    rw [symbols j (olen ▸ hj), symbols' j (h.len ▸ olen ▸ hj), number, h.len, State.fwdAt, State.fwdAt]
    simp only [h.fwd]

theorem SameSource.revAt {s s' : State} (h : SameSource s s') (c : Byte) : s.revAt c = s'.revAt c := by
  simp only [State.revAt, h.rev]

theorem inputInAlphabet_of_sameSource {s s' : State} (h : SameSource s s') (hs : InputInAlphabet s) : InputInAlphabet s' := by
  intro i hi
  have hi' : i < s.len := h.len ▸ hi
  rw [← h.revAt, ← h.units i hi']
  exact hs i hi'

/-- The first character outside the alphabet is the same one. -/
theorem execDec_sameOutcome_of_offender {s s' : State} (h : SameSource s s') (hv : s.valid = true)
    (hout : ∃ i, i < s.len ∧ s.revAt (s.inAt i) = none) :
    ∃ t t', exec .dec s = .next t ∧ exec .dec s' = .next t' ∧ SameOutcome t t' := by
  obtain ⟨hi, miss⟩ := Nat.find_spec hout
  have before : ∀ j, j < Nat.find hout → s.revAt (s.inAt j) ≠ none :=
    fun j hj hmiss => Nat.find_min hout hj ⟨by omega, hmiss⟩
  have same : ∀ j, j ≤ Nat.find hout → s'.revAt (s'.inAt j) = s.revAt (s.inAt j) :=
    fun j hj => by rw [h.revAt, h.units j (by omega)]
  obtain ⟨t, hx, err, errchar, olen, _⟩ := decReportsTheFirstInvalidCharacter s _ hv hi miss before
  obtain ⟨t', hx', err', errchar', olen', _⟩ := decReportsTheFirstInvalidCharacter s' _ (h.valid ▸ hv) (h.len ▸ hi)
    ((same _ (Nat.le_refl _)).trans miss) (fun j hj => same j (Nat.le_of_lt hj) ▸ before j hj)
  exact ⟨t, t', hx, hx', sameOutcome_of_sameCodec h (execDec_sameCodec hx) (execDec_sameCodec hx') (err.trans err'.symm)
    (olen.trans olen'.symm) (fun j hj => by omega) (fun _ => by rw [errchar, errchar', h.units _ hi])⟩

theorem execDec_sameOutcome {s s' : State} (h : SameSource s s') :
    ∃ t t', exec .dec s = .next t ∧ exec .dec s' = .next t' ∧ SameOutcome t t' := by
  cases hv : s.valid with
  | false => exact noCodec_sameOutcome h hv (by decide)
  | true =>
    have hv' := h.valid ▸ hv
    by_cases hin : InputInAlphabet s
    · have hin' := inputInAlphabet_of_sameSource h hin
      by_cases one : s.len = 1
      · obtain ⟨t, hx, raised, olen, _⟩ := decRejectsOneCharacter s hv hin
        obtain ⟨t', hx', raised', olen', _⟩ := decRejectsOneCharacter s' hv' hin'
        have one' : s'.len = 1 := h.len ▸ one
        have err := raised.2 one
        have empty := olen one
        exact ⟨t, t', hx, hx', sameOutcome_of_sameCodec h (execDec_sameCodec hx) (execDec_sameCodec hx')
          (err.trans (raised'.2 one').symm) (empty.trans (olen' one').symm) (fun j hj => by omega)
          (fun invalid => by simp [err] at invalid)⟩
      · obtain ⟨t, hx, err, olen, bytes⟩ := execDec_writes hv hin one
        obtain ⟨t', hx', err', olen', bytes'⟩ := execDec_writes hv' hin' (h.len ▸ one)
        have number : digitsNumber (inputIndex s) s.len = digitsNumber (inputIndex s') s.len :=
          digitsNumber_congr fun j hj => by rw [inputIndex, inputIndex, h.revAt, h.units j hj]
        refine ⟨t, t', hx, hx', sameOutcome_of_sameCodec h (execDec_sameCodec hx) (execDec_sameCodec hx')
          (err.trans err'.symm) (by rw [olen, olen', h.len]) (fun j hj => ?_) (fun raised => by simp [err] at raised)⟩
        have inside : j < byteLength s.len := olen ▸ hj
        rw [bytes j inside, bytes' j (h.len ▸ inside), ← h.len, textByte_eq _ inside, textByte_eq _ inside, textTail_eq,
          textTail_eq, number]
    · exact execDec_sameOutcome_of_offender h hv ((exists_miss_iff_not_inputInAlphabet s).2 hin)

/-- Settles O38: the closed forms and the causes of the errors mention the codec and the input alone. -/
theorem noStateCrossesCommands : Obligations.NoStateCrossesCommands := by
  intro i s s' fwd rev valid len units
  have h : SameSource s s' := ⟨fwd, rev, valid, len, units⟩
  cases i with
  | initr a => exact execInitr_sameOutcome a s s'
  | initb => exact execInitb_sameOutcome h
  | enc => exact execEnc_sameOutcome h
  | dec => exact execDec_sameOutcome h

end Sys2Proof.Proofs
end

section
/-! SUPPORT. O5, O6, O8 to O13: one step for each action of the host (20_memory R38 to R41), and STATUS (10_state R14). -/

namespace Sys2Proof.Proofs

open Sys2Proof Sys2Proof.Machine

/-- A step performs the next pending action in the state that has lost it. -/
theorem step_pending (s : State) (a : HostAction) (rest : List HostAction) :
    step { s with pending := a :: rest } = act a { s with pending := rest } := rfl

/-- Settles O5: issuing a word that decodes performs its command. -/
theorem stepRunsTheDecodedCommand : Obligations.StepRunsTheDecodedCommand := by
  intro s w i rest h
  rw [step_pending, act, hostIssue, h]

/-- Settles O6: with nothing pending the step is idle. -/
theorem idleStepChangesNothing : Obligations.IdleStepChangesNothing := by
  intro s h
  rw [step, nextAction, h]

/-! ## Writes -/

theorem step_writeIn {s : State} {i : Nat} (v : Byte) (rest : List HostAction) (fits : s.fitsIn (i + 1) = true) :
    step { s with pending := .writeIn i v :: rest } =
      .next { s with pending := rest, inp := s.inp.set i v, draws := s.draws + 1 } :=
  if_pos fits

theorem step_writeLen {s : State} {n : Nat} (rest : List HostAction) (fits : s.fitsIn n = true) :
    step { s with pending := .writeLen n :: rest } = .next { s with pending := rest, len := n, draws := s.draws + 1 } :=
  if_pos fits

/-- IN after a host write: the unit written, every other element as before. -/
theorem inAt_write (s : State) (i j : Nat) (v : Byte) :
    State.inAt { s with inp := s.inp.set i v } j = if j = i then v else s.inAt j := by
  rw [State.inAt, Memory.get?_set]
  split
  · rfl
  · rfl

/-- Settles O8: a write within the capacity writes one unit of IN, or LEN, and any other faults. -/
theorem hostWritesTakeEffect : Obligations.HostWritesTakeEffect := by
  refine ⟨fun s i v rest => ?_, fun s n rest => ?_⟩
  · split
    · rename_i fits
      exact ⟨_, step_writeIn v rest fits, (inAt_write s i i v).trans (if_pos rfl),
        fun j hj => (inAt_write s i j v).trans (if_neg hj), rfl⟩
    · rename_i outside
      exact if_neg outside
  · split
    · rename_i fits
      exact step_writeLen rest fits
    · rename_i outside
      exact if_neg outside

/-! ## Reads -/

/-- Settles O9: each target answers its register or element where it exists, and the value is the spec's where it gives one. -/
theorem hostReadsReturnTheirRegister : Obligations.HostReadsReturnTheirRegister := by
  intro s rest
  refine ⟨rfl, rfl, rfl, ⟨_, rfl, fun raised => if_pos raised⟩, fun i => rfl, fun j => ?_, fun k => ?_, rfl⟩
  · split
    · rename_i fits
      exact ⟨s.readOut j, if_pos fits, fun hj => if_pos hj⟩
    · rename_i outside
      exact if_neg outside
  · split
    · rename_i inside
      exact ⟨s.readAlpha k, if_pos inside, fun codec => if_pos codec⟩
    · rename_i outside
      exact if_neg outside

/-- No read looks at the answer of an earlier one. -/
theorem hostRead_answerWith (x : Target) (a : Answer) (s : State) : hostRead x (s.answerWith a) = hostRead x s := by
  cases x <;> rfl

/-- Settles O10: a read writes the answer alone, and does not look at it. -/
theorem readsHaveNoSideEffect : Obligations.ReadsHaveNoSideEffect := by
  intro s t x rest h
  obtain ⟨a, rfl⟩ := hostRead_cases h
  exact ⟨rfl, (hostRead_answerWith x a { s with pending := rest }).trans h⟩

/-! ## Reset and STATUS -/

/-- Settles O11: Reset puts the block at its reset values and keeps what is the host's. -/
theorem resetClearsStatusAndLengths : Obligations.ResetClearsStatusAndLengths :=
  fun _ _ => ⟨_, rfl, (rfl : State.reset.status = 0), rfl, rfl, rfl, rfl, rfl, rfl, rfl⟩

/-- Settles O12: these are the values written in `State.reset`. -/
theorem resetStateHasTheGivenValues : Obligations.ResetStateHasTheGivenValues := ⟨rfl, rfl, rfl, rfl, rfl⟩

/-- Settles O13: STATUS is four zero bits, the code of ERR and VALID, in that order. -/
theorem statusWordLayout : Obligations.StatusWordLayout := by
  refine ⟨fun s => ?_, rfl, rfl, rfl, rfl, rfl, rfl⟩
  unfold State.status
  generalize errBits s.err = code
  generalize s.valid = valid
  revert code valid
  decide

end Sys2Proof.Proofs
end

section
/-! SUPPORT. O37: the host actions of `.feed` (30_encoding R60). -/

namespace Sys2Proof.Proofs

open Sys2Proof Sys2Proof.Machine

/-- A run of one step more begins with that step. -/
theorem run_succ {s t : State} (k : Nat) (h : step s = .next t) :
    Host.Core.run core (k + 1) s = Host.Core.run core k t := by
  have answered : core.step s = .next t := h
  simp only [Host.Core.run, answered]

/-- The state after the host has written the units of a list to IN, the first at index `i`. -/
def loadUnits (s : State) (i : Nat) : List Byte → State
  | [] => s
  | v :: vs => loadUnits { s with inp := s.inp.set i v, draws := s.draws + 1 } (i + 1) vs

/-- Loading writes IN alone, besides the counter draws. -/
theorem loadUnits_frame (s : State) (i : Nat) (vs : List Byte) :
    loadUnits s i vs = { s with inp := (loadUnits s i vs).inp, draws := (loadUnits s i vs).draws } := by
  induction vs generalizing s i with
  | nil => rfl
  | cons v vs ih => rw [loadUnits, ih]

/-- IN after loading: the units of the list from index `i` on, every other element as before. -/
theorem inAt_loadUnits (s : State) (i j : Nat) (vs : List Byte) :
    (loadUnits s i vs).inAt j = if i ≤ j then (vs[j - i]?).getD (s.inAt j) else s.inAt j := by
  induction vs generalizing s i with
  | nil => simp [loadUnits]
  | cons v vs ih =>
    have written : State.inAt { s with inp := s.inp.set i v, draws := s.draws + 1 } j = if j = i then v else s.inAt j :=
      inAt_write s i j v
    rw [loadUnits, ih, written]
    rcases Nat.lt_trichotomy j i with lt | rfl | gt
    · rw [if_neg (by omega), if_neg (by omega), if_neg (by omega)]
    · simp
    · rw [if_pos (by omega), if_neg (by omega), if_pos (by omega), show j - i = j - (i + 1) + 1 by omega,
        List.getElem?_cons_succ]

/-- The writes of a list of units that fits are one step each and load it. -/
theorem run_writesFrom (s : State) (i k : Nat) (vs : List Byte) (rest : List HostAction)
    (fits : s.fitsIn (i + vs.length) = true) :
    Host.Core.run core (vs.length + k) { s with pending := writesFrom i vs ++ rest } =
      Host.Core.run core k { loadUnits s i vs with pending := rest } := by
  induction vs generalizing s i with
  | nil => simp [writesFrom, loadUnits]
  | cons v vs ih =>
    rw [List.length_cons] at fits ⊢
    have first : step { s with pending := writesFrom i (v :: vs) ++ rest } = _ :=
      step_writeIn v (writesFrom (i + 1) vs ++ rest) (fitsIn_mono fits (by omega))
    rw [show vs.length + 1 + k = vs.length + k + 1 by omega, run_succ _ first]
    exact ih { s with inp := s.inp.set i v, draws := s.draws + 1 } (i + 1)
      (by rw [show i + 1 + vs.length = i + (vs.length + 1) by omega]; exact fits)

theorem length_result (s : State) : s.result.length = s.olen := by simp [State.result]

theorem getElem?_result (s : State) (j : Nat) : s.result[j]? = if j < s.olen then some (s.outAt j) else none := by
  rw [State.result, List.getElem?_map]
  split
  · rename_i hj
    rw [List.getElem?_range hj, Option.map_some]
  · rename_i hj
    rw [List.getElem?_eq_none (by simpa using hj), Option.map_none]

/-- Settles O37: the first OLEN actions load the result into IN, and the last one writes its length to LEN. -/
theorem feedBringsTheResultToTheInput : Obligations.FeedBringsTheResultToTheInput := by
  intro s fits
  have load := run_writesFrom s 0 1 s.result [.writeLen s.olen] (by rw [length_result, Nat.zero_add]; exact fits)
  rw [length_result] at load
  have frame := loadUnits_frame s 0 s.result
  have room : (loadUnits s 0 s.result).fitsIn s.olen = true := by rw [frame]; exact fits
  have last := run_succ 0 (step_writeLen [] room)
  have units : ∀ j, (loadUnits s 0 s.result).inAt j = (s.result[j]?).getD (s.inAt j) := by
    intro j
    rw [inAt_loadUnits, if_pos (Nat.zero_le j), Nat.sub_zero]
  refine ⟨_, load.trans last, rfl, fun j hj => ?_, fun j hj => ?_, by rw [frame], by rw [frame], by rw [frame], rfl⟩
  · exact (units j).trans (by rw [getElem?_result, if_pos hj, Option.getD_some])
  · exact (units j).trans (by rw [getElem?_result, if_neg (by omega), Option.getD_none])

end Sys2Proof.Proofs
end
